-- ==== Sys2Proof/Word.lean ====
section
/-!
DEFINITION. The word of the machine: a signed integer of W bits (00_scope.md R4, R10).

A word is held as an integer, not as a bit vector: the spec never reads a word by its bits (R11: "bits[hi:lo]: not
used"), decodes it by decimal digits (R9), computes on exact integers (R10) and says "A model represents a cell as one
integer" (20_memory.md R42). The range of W bits is the predicate `IsWord`, kept by every Step (Safety.lean). Log 1.
-/

namespace Sys2Proof

/-- The content of a memory cell, an input-queue entry or an output-log entry (R4). -/
abbrev Word := Int

/-- WORD_MIN = −2^(W−1) (R4). -/
def wordMin (W : Nat) : Int := -(2 ^ (W - 1))

/-- WORD_MAX = 2^(W−1) − 1 (R4). -/
def wordMax (W : Nat) : Int := 2 ^ (W - 1) - 1

/-- `v` is a word of `W` bits: WORD_MIN ≤ v ≤ WORD_MAX (R4, R10). -/
abbrev IsWord (W : Nat) (v : Int) : Prop := wordMin W ≤ v ∧ v ≤ wordMax W

end Sys2Proof
end

