-- ==== Sys2Proof/Config.lean ====
section
/-!
DEFINITION. The implementation parameters of 00_scope.md section 3 (R4 to R8). They are no state (00_scope.md section 6,
item 2): a machine is built with one value of each. `Config.spec` holds the values the spec takes; `exec`, `step` and
every other fixed name use it. `execAt`, `stepAt` and `runAt` take any `Config`, so that the alternatives the spec
defines (`wrap`, `saturate`, `ignore`, another width) are modelled too. Log 1.
-/

namespace Sys2Proof

/-- OVERFLOW_POLICY: what Add and Multiply do with a result out of range (R5, 41_arithmetic.md R103). -/
inductive OverflowPolicy where
  /-- NumericOverflow is raised and nothing is written: the spec's value. -/
  | fault
  /-- The result is reduced modulo 2^W into the word range. -/
  | wrap
  /-- The result is clamped to WORD_MIN or WORD_MAX. -/
  | saturate
  deriving DecidableEq, Repr

/-- HIGH_DIGIT_POLICY: what the decoder does with non-zero digits above the last mode digit (R7, 30_encoding.md R71). -/
inductive HighDigitPolicy where
  /-- DecodeError RESERVED_DIGITS: the spec's value. -/
  | fault
  /-- The digits are not examined. -/
  | ignore
  deriving DecidableEq, Repr

/-- The five parameters. A capacity of `none` is "unbounded" (R6). -/
structure Config where
  /-- WORD_BITS, written W (R4). -/
  wordBits : Nat
  /-- OVERFLOW_POLICY (R5). -/
  overflowPolicy : OverflowPolicy
  /-- HIGH_DIGIT_POLICY (R7). -/
  highDigitPolicy : HighDigitPolicy
  /-- MEM_CAP (R6). -/
  memCap : Option Nat
  /-- IN_CAP (R6). -/
  inCap : Option Nat
  deriving DecidableEq, Repr

/-- The values this spec takes (the summary table of 00_scope.md section 3): W = 64, both policies `fault`, no caps. -/
def Config.spec : Config where
  wordBits := 64
  overflowPolicy := .fault
  highDigitPolicy := .fault
  memCap := none
  inCap := none

/-- `n` is within a capacity (R6); every natural number is within an unbounded one. -/
abbrev withinCap (cap : Option Nat) (n : Nat) : Prop := ∀ k ∈ cap, n ≤ k

/-- What R4 and R6 ask of the parameters: W ≥ 12, and a bounded MEM_CAP is at most 2^(W−1). -/
abbrev Config.wf (c : Config) : Prop := 12 ≤ c.wordBits ∧ ∀ k ∈ c.memCap, k ≤ 2 ^ (c.wordBits - 1)

end Sys2Proof
end

