-- ==== Sys2Proof/Syntax.lean ====
section
/-!
DEFINITION. The instruction set as syntax: the addressing modes (30_encoding.md R66), the five operations of the catalog
(R68), the decoded instruction word `Instr` (40_step_cycle.md R82), the reasons DECODE rejects a word, and the
whole instructions of the spec's assembly notation (R74).
-/

namespace Sys2Proof

/-- The addressing mode of one parameter; "Two modes are defined" (30_encoding.md R66). -/
inductive Mode where
  /-- Digit 0, Position: the raw parameter is an address. -/
  | position
  /-- Digit 1, Immediate: the raw parameter is the operand. -/
  | immediate
  deriving DecidableEq, Repr

/-- Whether a parameter is read or written (R64: R and W). -/
inductive ParamKind where
  | read
  | write
  deriving DecidableEq, Repr

/-- The five operations of the closed catalog (R68). -/
inductive Op where
  | add
  | mul
  | inp
  | out
  | halt
  deriving DecidableEq, Repr

/-- One row of the catalog: the operation and the kinds of its parameters in order, `Catalog(op)` of R80. -/
structure CatalogRow where
  op : Op
  kinds : List ParamKind
  deriving DecidableEq, Repr

/-- A decoded instruction word: "a variant identifying {Add, Multiply, Input, Output, Halt}, each carrying its resolved
mode list" (R82). The raw parameters are not part of it: they stand in the memory cells after the word and are fetched
one by one while the instruction resolves its parameters (R86). Log 9. -/
inductive Instr where
  /-- Add, opcode 1 (41_arithmetic.md R100): the modes of parameters 1, 2 (read) and 3 (write). -/
  | add (m1 m2 m3 : Mode)
  /-- Multiply, opcode 2 (41_arithmetic.md R101): the modes of parameters 1, 2 (read) and 3 (write). -/
  | mul (m1 m2 m3 : Mode)
  /-- Input, mnemonic `in`, opcode 3 (42_io.md R110): the mode of parameter 1 (write). -/
  | inp (m1 : Mode)
  /-- Output, opcode 4 (42_io.md R111): the mode of parameter 1 (read). -/
  | out (m1 : Mode)
  /-- Halt, opcode 99 (43_control.md R120). -/
  | halt
  deriving DecidableEq, Repr

/-- Why DECODE rejects a word, in the order in which the reasons are tested (30_encoding.md R72). -/
inductive Reject where
  /-- Negative word, or opcode not in the catalog (R61, R69). -/
  | unknownOpcode
  /-- A mode digit 2 to 9 in a mode field the operation has (R70 a). -/
  | invalidMode
  /-- A non-zero digit above the last mode field, under HIGH_DIGIT_POLICY = fault (R71). -/
  | reservedDigits
  /-- Mode digit 1 on a write parameter (R70 b). -/
  | writeImmediate
  deriving DecidableEq, Repr

/-- A read operand of the assembly notation (R74). -/
inductive ReadOperand where
  /-- `[n]`: Position mode, raw parameter n. -/
  | cell (n : Word)
  /-- `#n`: Immediate mode, raw parameter n. -/
  | lit (n : Word)
  deriving DecidableEq, Repr

/-- A whole instruction with its operands, one line of the assembly notation (R74). -/
inductive AsmLine where
  | add (a b : ReadOperand) (d : Word)
  | mul (a b : ReadOperand) (d : Word)
  | inp (d : Word)
  | out (a : ReadOperand)
  | halt
  deriving DecidableEq, Repr

/-- A line of a listing: an instruction, or the one directive `.word n, n, ...` (R75). -/
inductive SourceLine where
  | instr (l : AsmLine)
  | words (ws : List Word)
  deriving DecidableEq, Repr

end Sys2Proof
end

