-- ==== Sys2Proof/WellFormed.lean ====
section
/-!
DEFINITION. Well-formed instructions. The one check the spec puts on a decoded word beyond its shape is that a write
parameter is never in Immediate mode (30_encoding.md R68 column "legal modes", R70 b; 90_conflicts.md C3).
-/

namespace Sys2Proof

/-- `m` is a legal mode of a write parameter: Position only (R68, R70 b). -/
def Mode.legalForWrite (m : Mode) : Bool := m == .position

/-- The instruction is one of the catalog with legal modes (R68); there are twelve of them (R71). -/
def Instr.wf : Instr → Bool
  | .add _ _ m3 => m3.legalForWrite
  | .mul _ _ m3 => m3.legalForWrite
  | .inp m1 => m1.legalForWrite
  | .out _ => true
  | .halt => true

end Sys2Proof
end

