-- ==== Sys2Proof/Decode.lean ====
section
/-!
DEFINITION. The decoder: from the instruction word to a decoded instruction or a named rejection (40_step_cycle.md R82,
30_encoding.md R60 to R72). It looks at the word only (R82). After it the encoder, the assembly notation (R74, R75),
and the reading of a word given as table bits that the host asks for.
-/

namespace Sys2Proof

/-! ## Digits and the catalog -/

/-- `digit_k(v)` = ⌊v / 10^k⌋ mod 10; a digit that v is too short to have is 0 (00_scope.md R9). -/
def digit (k v : Nat) : Nat := v / 10 ^ k % 10

/-- The opcode, `v mod 100` (30_encoding.md R65). -/
def opcodeOf (v : Nat) : Nat := v % 100

/-- `Catalog(op)` of 40_step_cycle.md R80, from the catalog of 30_encoding.md R68; any other opcode is in no row. -/
def catalog : Nat → Option CatalogRow
  | 1 => some ⟨.add, [.read, .read, .write]⟩
  | 2 => some ⟨.mul, [.read, .read, .write]⟩
  | 3 => some ⟨.inp, [.write]⟩
  | 4 => some ⟨.out, [.read]⟩
  | 99 => some ⟨.halt, []⟩
  | _ => none

/-- The width of an operation: the instruction word and one cell per parameter (30_encoding.md R60, R68). -/
def Op.width : Op → Nat
  | .add => 4
  | .mul => 4
  | .inp => 2
  | .out => 2
  | .halt => 1

/-- The operation of an instruction. -/
def Instr.op : Instr → Op
  | .add _ _ _ => .add
  | .mul _ _ _ => .mul
  | .inp _ => .inp
  | .out _ => .out
  | .halt => .halt

/-- The number of cells an instruction occupies, decided by the opcode alone (R63). -/
def Instr.width (i : Instr) : Nat := i.op.width

/-- Digit 0 is Position and digit 1 is Immediate (R66); DECODE asks this of no other digit. -/
def modeOfDigit : Nat → Mode
  | 0 => .position
  | _ => .immediate

/-- The instruction of an operation whose parameter `i` has the mode `mode i`. -/
def Op.instr (op : Op) (mode : Nat → Mode) : Instr :=
  match op with
  | .add => .add (mode 1) (mode 2) (mode 3)
  | .mul => .mul (mode 1) (mode 2) (mode 3)
  | .inp => .inp (mode 1)
  | .out => .out (mode 1)
  | .halt => .halt

/-- The parameters of a row with their numbers, counted from 1. -/
def CatalogRow.params (row : CatalogRow) : List (ParamKind × Nat) := row.kinds.zipIdx 1

/-- Some mode field of the operation holds a digit 2 to 9 (30_encoding.md R70 a). -/
def CatalogRow.hasInvalidMode (row : CatalogRow) (v : Nat) : Bool :=
  row.params.any fun p => decide (2 ≤ digit (p.2 + 1) v)

/-- What stands above the last mode field: v div 10^(n+2) for an operation with n parameters (R71). -/
def CatalogRow.highDigits (row : CatalogRow) (v : Nat) : Nat := v / 10 ^ (row.kinds.length + 2)

/-- Some write parameter has mode digit 1 (R70 b). -/
def CatalogRow.hasImmediateWrite (row : CatalogRow) (v : Nat) : Bool :=
  row.params.any fun p => p.1 == .write && decide (digit (p.2 + 1) v = 1)

/-! ## Decode -/

/-- DECODE (40_step_cycle.md R80, R82), its tests in the order of 30_encoding.md R72. -/
def decodeWith (p : HighDigitPolicy) (v : Word) : Except Reject Instr :=
  if v < 0 then .error .unknownOpcode
  else
    match catalog (opcodeOf v.toNat) with
    | none => .error .unknownOpcode
    | some row =>
      if row.hasInvalidMode v.toNat then .error .invalidMode
      else if p = .fault ∧ row.highDigits v.toNat ≠ 0 then .error .reservedDigits
      else if row.hasImmediateWrite v.toNat then .error .writeImmediate
      else .ok (row.op.instr fun i => modeOfDigit (digit (i + 1) v.toNat))

/-- The decoder of the machine with the spec's parameters. -/
def decode (v : Word) : Except Reject Instr := decodeWith Config.spec.highDigitPolicy v

/-! ## Encode -/

/-- The opcode of an operation (30_encoding.md R68). -/
def Op.opcode : Op → Nat
  | .add => 1
  | .mul => 2
  | .inp => 3
  | .out => 4
  | .halt => 99

/-- The digit of a mode (R66). -/
def Mode.digit : Mode → Nat
  | .position => 0
  | .immediate => 1

/-- The instruction word 10000·m_3 + 1000·m_2 + 100·m_1 + opcode (R74); an absent parameter adds nothing. -/
def encode : Instr → Word
  | .add m1 m2 m3 => (10000 * m3.digit + 1000 * m2.digit + 100 * m1.digit + Op.add.opcode : Nat)
  | .mul m1 m2 m3 => (10000 * m3.digit + 1000 * m2.digit + 100 * m1.digit + Op.mul.opcode : Nat)
  | .inp m1 => (100 * m1.digit + Op.inp.opcode : Nat)
  | .out m1 => (100 * m1.digit + Op.out.opcode : Nat)
  | .halt => (Op.halt.opcode : Nat)

/-! ## Whole instructions and listings -/

/-- The mode a read operand is written in (R74). -/
def ReadOperand.mode : ReadOperand → Mode
  | .cell _ => .position
  | .lit _ => .immediate

/-- The raw parameter of a read operand (R74). -/
def ReadOperand.raw : ReadOperand → Word
  | .cell n => n
  | .lit n => n

/-- The read operand with a given mode and raw parameter. -/
def readOperand (m : Mode) (r : Word) : ReadOperand :=
  match m with
  | .position => .cell r
  | .immediate => .lit r

/-- The decoded instruction word of a line (R74); a write operand `[n]` has mode digit 0. -/
def AsmLine.instr : AsmLine → Instr
  | .add a b _ => .add a.mode b.mode .position
  | .mul a b _ => .mul a.mode b.mode .position
  | .inp _ => .inp .position
  | .out a => .out a.mode
  | .halt => .halt

/-- The raw parameters of a line, in ascending address order (20_memory.md R43). -/
def AsmLine.raws : AsmLine → List Word
  | .add a b d => [a.raw, b.raw, d]
  | .mul a b d => [a.raw, b.raw, d]
  | .inp d => [d]
  | .out a => [a.raw]
  | .halt => []

/-- The cells of a line: the instruction word followed by the raw parameters in order (R74, 20_memory.md R43). -/
def assemble (l : AsmLine) : List Word := encode l.instr :: l.raws

/-- The cells of a listing, one line after another; `.word` places its words (R75). -/
def assembleAll (ls : List SourceLine) : List Word :=
  ls.flatMap fun
    | .instr l => assemble l
    | .words ws => ws

/-- The line a decoded word stands for, given the cells after it; `none` when a parameter cell is missing. -/
def lineOf : Instr → List Word → Option (AsmLine × List Word)
  | .add m1 m2 _, r1 :: r2 :: r3 :: rest => some (.add (readOperand m1 r1) (readOperand m2 r2) r3, rest)
  | .mul m1 m2 _, r1 :: r2 :: r3 :: rest => some (.mul (readOperand m1 r1) (readOperand m2 r2) r3, rest)
  | .inp _, r1 :: rest => some (.inp r1, rest)
  | .out m1, r1 :: rest => some (.out (readOperand m1 r1), rest)
  | .halt, rest => some (.halt, rest)
  | _, _ => none

/-- Read one whole instruction from the front of a sequence of cells, and give the cells after it. -/
def disassemble : List Word → Option (AsmLine × List Word)
  | [] => none
  | v :: rest =>
    match decode v with
    | .error _ => none
    | .ok i => lineOf i rest

/-! ## The word of an opcode-table row, as the host numbers its bits -/

/-- The signed word of `W` bits whose two's-complement bits are those of `n` (00_scope.md R4). -/
def signedOfBits (W n : Nat) : Word :=
  if n % 2 ^ W < 2 ^ (W - 1) then ((n % 2 ^ W : Nat) : Int) else ((n % 2 ^ W : Nat) : Int) - 2 ^ W

/-- Cell `k` of an instruction given as `nbits` bits `w`, the first cell in the lowest W bits (log 11). -/
def tableCell (nbits w k : Nat) : Word :=
  signedOfBits Config.spec.wordBits (w % 2 ^ nbits / 2 ^ (Config.spec.wordBits * k))

/-- The four cells (the longest width) of an instruction given as table bits. -/
def tableCells (nbits w : Nat) : List Word :=
  [tableCell nbits w 0, tableCell nbits w 1, tableCell nbits w 2, tableCell nbits w 3]

/-- What the decoder reads from an instruction given as table bits: it looks at the first cell alone (R82). -/
def decodeTableWord (nbits w : Nat) : Option Instr :=
  match decode (tableCell nbits w 0) with
  | .ok i => some i
  | .error _ => none

end Sys2Proof
end

