-- ==== Sys2Proof/Machine/State.lean ====
section
/-!
DEFINITION. The architectural state (10_state.md): between Steps it is exactly M, len, pc, running, inq, outq and the
fault latch (R33), and whether the machine has been constructed (R28, 70_reset_and_hazards.md R180). Plain data.
-/

namespace Sys2Proof.Machine

/-- The class held in `fault_cause` (10_state.md R27, 60_exceptions.md R150). -/
inductive FaultCause where
  | none
  | decodeError
  | addressingError
  | inputStarvation
  | numericOverflow
  deriving DecidableEq, Repr

/-- The fault latch (10_state.md R27): which fault a Step met, with its sub-cause, its pc and the offending instruction
word or address. -/
structure FaultLatch where
  /-- `fault_cause`. -/
  cause : FaultCause
  /-- `fault_sub`: the sub-cause within the class, 0 when there is none. -/
  sub : Nat
  /-- `fault_pc`: the pc of the faulting Step. -/
  pc : Nat
  /-- `fault_info`: the offending word or address, 0 when not applicable. -/
  info : Int
  deriving DecidableEq, Repr

/-- The latch as Construct leaves it (70_reset_and_hazards.md R185). -/
def FaultLatch.clear : FaultLatch := ⟨.none, 0, 0, 0⟩

/-- Memory M (10_state.md R21): `len` cells at the addresses 0..len−1, each one word. `cells` lists, by rising address,
the cells that do not hold `blankWord`; the canonical form is `Memory.wf` (Ops.lean). Log 4. -/
structure Memory where
  len : Nat
  cells : List (Nat × Word)
  deriving DecidableEq, Repr

/-- What a cell that is not listed holds, at an address below `len`. A matter of representation only: Construct writes
every cell (R183), so no cell is ever unwritten. Log 4. -/
def blankWord : Word := 0

/-- The memory with no cell at all. -/
def Memory.empty : Memory := ⟨0, []⟩

/-- The whole state of the machine. -/
structure State where
  /-- A Construct has been admitted since power-on; false is the status Unconstructed (R28, R180). Log 12. -/
  constructed : Bool
  /-- M and len (R21). -/
  mem : Memory
  /-- The program counter (R22): a natural number, the address of the next instruction word. -/
  pc : Nat
  /-- The one flag (R25): true is Running, false is Halted. -/
  running : Bool
  /-- The input queue, oldest entry first (R30). -/
  inq : List Word
  /-- The output log, in append order (R31). -/
  outq : List Word
  /-- The fault latch (R27). -/
  latch : FaultLatch
  deriving DecidableEq, Repr

/-- The status of the machine, a function of the state (R28; `State.status` in Ops.lean). -/
inductive Status where
  | unconstructed
  | running
  | halted
  | faulted
  deriving DecidableEq, Repr

/-- The faults of a Step (60_exceptions.md R151 to R154), each with what `fault_info` holds. Taking one is
`State.raise` (Ops.lean). -/
inductive FaultReason where
  /-- DecodeError 1: the word is negative or its opcode is not in the catalog. -/
  | unknownOpcode (v : Word)
  /-- DecodeError 2: a mode field of the operation holds a digit 2 to 9. -/
  | invalidMode (v : Word)
  /-- DecodeError 3: a digit above the last mode field is not 0. -/
  | reservedDigits (v : Word)
  /-- AddressingError 1: pc is not a valid address at FETCH. -/
  | fetchOob (a : Nat)
  /-- AddressingError 2: mode digit 1 on a write parameter. -/
  | writeImmediate (v : Word)
  /-- AddressingError 3: the slot of a parameter is at or past len. -/
  | slotOob (a : Nat)
  /-- AddressingError 4: the address of a Position-mode operand is not valid. -/
  | operandOob (a : Int)
  /-- AddressingError 5: the address to be written is not valid. -/
  | targetOob (a : Int)
  /-- InputStarvation: the input queue is empty. -/
  | inputStarvation
  /-- NumericOverflow: the exact result is not a word, under OVERFLOW_POLICY = fault. -/
  | numericOverflow
  deriving DecidableEq, Repr

/-- How a Step ends that raises a fault: the fatal diagnostic, an outcome of its own and no next state to continue from
(60_exceptions.md R165). The class is the constructor; `after` is the state that fault entry leaves, status Faulted, with
the cause, sub-cause, pc and info in its latch and nothing else changed (R161, R162). Raised by `takeFault` (Ops.lean),
for FETCH and DECODE in `step` and for the later stages in the meanings. Log 7. Every constructor is safe. -/
inductive Fault where
  /-- DecodeError (R151): raised by `step` for a word that DECODE rejects. Safe. -/
  | decodeError (after : State)
  /-- AddressingError (R152): raised by `step` at FETCH and DECODE, and by every meaning but Halt's. Safe. -/
  | addressingError (after : State)
  /-- InputStarvation (R153): raised by Input. Safe. -/
  | inputStarvation (after : State)
  /-- NumericOverflow (R154): raised by Add and Multiply. Safe. -/
  | numericOverflow (after : State)
  deriving DecidableEq, Repr

/-- Why a request is turned away without effect. Every constructor is safe: nothing changes. -/
inductive Refusal where
  /-- An instruction of the table that has no meaning yet; raised by no arm of `exec`. Safe. -/
  | notModelled (mnemonic : String)
  /-- A Step requested before any Construct; raised by `step` (44_host_operations.md R140). Safe. -/
  | stepWhenUnconstructed
  /-- A Step requested of a Halted machine; raised by `step` (R140). Safe. -/
  | stepWhenHalted
  /-- A Step requested of a Faulted machine; raised by `step` (R140, 60_exceptions.md R163). Safe. -/
  | stepWhenFaulted
  /-- A Construct that is not admitted; raised by `construct` (R131). Safe. -/
  | constructNotAdmitted
  /-- An Inspect before any Construct; raised by `inspect` (R137, R180). Safe. -/
  | inspectWhenUnconstructed
  /-- An Inspect of a cell or log entry that does not exist; raised by `inspect` (R137). Safe. -/
  | inspectInvalidIndex
  /-- A Run requested before any Construct; raised by `answerTo` (R141). Safe. -/
  | runWhenUnconstructed
  deriving DecidableEq, Repr

/-- The machine right after reset, which is the Construct transaction (70_reset_and_hazards.md R181 to R185), here
Construct([], []): the empty program and no input, since State.reset names no program (R131 admits it). Log 5. -/
def State.reset : State where
  constructed := true
  mem := .empty
  pc := 0
  running := true
  inq := []
  outq := []
  latch := .clear

end Sys2Proof.Machine
end

