-- ==== Sys2Proof/Machine/Ops.lean ====
section
/-!
DEFINITION. The named operations over the state: memory accesses (20_memory.md), taking a fault (60_exceptions.md R161),
the advance of pc, the two queues, the status and the enabling of a Step.

There is no return from a fault to stand beside its entry: "There is no trap-return instruction and no recovery" (R164);
only Construct clears the latch (Transactions.lean).
-/

namespace Sys2Proof.Machine

/-- What a step or a meaning of this machine answers. -/
abbrev Answer := Host.Outcome State Fault Refusal

/-- The state that a fault leaves (60_exceptions.md R161). -/
def Fault.after : Fault → State
  | .decodeError t => t
  | .addressingError t => t
  | .inputStarvation t => t
  | .numericOverflow t => t

/-- The state of the machine after an answer: the next state, or the state that a fault leaves; none where the request was
turned away. -/
def stateAfter : Answer → Option State
  | .next t => some t
  | .fault f => some f.after
  | .refused _ => none

/-! ## Memory -/

/-- What a list of cells holds at an address. -/
def getCell : List (Nat × Word) → Nat → Word
  | [], _ => blankWord
  | (b, w) :: rest, a => if a = b then w else getCell rest a

/-- A list of cells with one word changed, in rising order, a blank word never listed. -/
def setCell : List (Nat × Word) → Nat → Word → List (Nat × Word)
  | [], a, v => if v = blankWord then [] else [(a, v)]
  | (b, w) :: rest, a, v =>
    if a < b then (if v = blankWord then (b, w) :: rest else (a, v) :: (b, w) :: rest)
    else if a = b then (if v = blankWord then rest else (a, v) :: rest)
    else (b, w) :: setCell rest a v

/-- The canonical form of memory: addresses strictly rising, each below len, no blank word listed. -/
abbrev Memory.wf (m : Memory) : Prop :=
  m.cells.Pairwise (fun x y => x.1 < y.1) ∧ ∀ x ∈ m.cells, x.1 < m.len ∧ x.2 ≠ blankWord

/-- `InRange(a)`: 0 ≤ a < len (00_scope.md R10, R11; 20_memory.md R41). A negative address is out of range. -/
abbrev Memory.InRange (m : Memory) (a : Int) : Prop := 0 ≤ a ∧ a < (m.len : Int)

/-- `MemRead(a, 1)` (00_scope.md R11): the word at a valid address, `none` at any other. -/
def Memory.read (m : Memory) (a : Int) : Option Word :=
  if m.InRange a then some (getCell m.cells a.toNat) else none

/-- `MemWrite(a, 1, v)` (R11). Its precondition is InRange(a); outside it nothing changes, since memory is never
extended (20_memory.md R41). -/
def Memory.write (m : Memory) (a : Int) (v : Word) : Memory :=
  if m.InRange a then { m with cells := setCell m.cells a.toNat v } else m

/-- The cells that hold a sequence of words from address `k` on. -/
def cellsFrom : Nat → List Word → List (Nat × Word)
  | _, [] => []
  | k, v :: rest => if v = blankWord then cellsFrom (k + 1) rest else (k, v) :: cellsFrom (k + 1) rest

/-- Memory as Construct loads it: len = len(program) and M[a] = program[a] (70_reset_and_hazards.md R183). -/
def Memory.load (program : List Word) : Memory := ⟨program.length, cellsFrom 0 program⟩

/-- The full sequence of the words of memory, in address order (44_host_operations.md R137). -/
def Memory.contents (m : Memory) : List Word := (List.range m.len).map (getCell m.cells)

/-- Store consecutive words from address `k` on, in a list of cells. -/
def setCells : List (Nat × Word) → Nat → List Word → List (Nat × Word)
  | cs, _, [] => cs
  | cs, k, v :: rest => setCells (setCell cs k v) (k + 1) rest

/-- Memory with consecutive words placed from address `k` on, long enough to hold them. No transaction of the machine:
it stands for a Construct of a program that holds those words there (log 6). -/
def Memory.place (m : Memory) (k : Nat) (ws : List Word) : Memory :=
  ⟨max m.len (k + ws.length), setCells m.cells k ws⟩

/-- WRITEBACK of a word to memory (40_step_cycle.md R89). -/
def State.writeCell (s : State) (a : Int) (v : Word) : State := { s with mem := s.mem.write a v }

/-! ## Program counter and queues -/

/-- ADVANCE: pc <- pc + width, over the natural numbers, never wrapping (10_state.md R23, R24). -/
def State.advance (s : State) (width : Nat) : State := { s with pc := s.pc + width }

/-- inq <- tail(inq): remove the oldest element (10_state.md R30). -/
def State.popInput (s : State) : State := { s with inq := s.inq.tail }

/-- outq <- outq ++ [v]: append at the end (10_state.md R31). -/
def State.appendOutput (s : State) (v : Word) : State := { s with outq := s.outq ++ [v] }

/-! ## Faults -/

/-- The class of a fault (60_exceptions.md R150 to R154). -/
def FaultReason.cause : FaultReason → FaultCause
  | .unknownOpcode _ => .decodeError
  | .invalidMode _ => .decodeError
  | .reservedDigits _ => .decodeError
  | .fetchOob _ => .addressingError
  | .writeImmediate _ => .addressingError
  | .slotOob _ => .addressingError
  | .operandOob _ => .addressingError
  | .targetOob _ => .addressingError
  | .inputStarvation => .inputStarvation
  | .numericOverflow => .numericOverflow

/-- The sub-cause number of a fault (R151, R152); 0 where the class has none (R153, R154). -/
def FaultReason.sub : FaultReason → Nat
  | .unknownOpcode _ => 1
  | .invalidMode _ => 2
  | .reservedDigits _ => 3
  | .fetchOob _ => 1
  | .writeImmediate _ => 2
  | .slotOob _ => 3
  | .operandOob _ => 4
  | .targetOob _ => 5
  | .inputStarvation => 0
  | .numericOverflow => 0

/-- What `fault_info` holds (R151 to R154). -/
def FaultReason.info : FaultReason → Int
  | .unknownOpcode v => v
  | .invalidMode v => v
  | .reservedDigits v => v
  | .fetchOob a => a
  | .writeImmediate v => v
  | .slotOob a => a
  | .operandOob a => a
  | .targetOob a => a
  | .inputStarvation => 0
  | .numericOverflow => 0

/-- The fault that a rejected instruction word raises (R151, R152); `fault_info` is the whole word. -/
def rejectReason (e : Reject) (v : Word) : FaultReason :=
  match e with
  | .unknownOpcode => .unknownOpcode v
  | .invalidMode => .invalidMode v
  | .reservedDigits => .reservedDigits v
  | .writeImmediate => .writeImmediate v

/-- The number of a class in `fault_cause` (10_state.md R27, 60_exceptions.md R150). -/
def FaultCause.code : FaultCause → Nat
  | .none => 0
  | .decodeError => 1
  | .addressingError => 2
  | .inputStarvation => 3
  | .numericOverflow => 4

/-- Fault entry, `raise C(sub, info)` (60_exceptions.md R161): the four fields of the latch are set, fault_pc to the pc
of the faulting Step, and nothing else changes (R162). Control goes nowhere: there is no handler. -/
def State.raise (s : State) (r : FaultReason) : State :=
  { s with latch := ⟨r.cause, r.sub, s.pc, r.info⟩ }

/-- The fatal diagnostic of a fault, named by its class (R150), where fault entry leaves `t`. -/
def FaultReason.fault (r : FaultReason) (t : State) : Fault :=
  match r with
  | .unknownOpcode _ => .decodeError t
  | .invalidMode _ => .decodeError t
  | .reservedDigits _ => .decodeError t
  | .fetchOob _ => .addressingError t
  | .writeImmediate _ => .addressingError t
  | .slotOob _ => .addressingError t
  | .operandOob _ => .addressingError t
  | .targetOob _ => .addressingError t
  | .inputStarvation => .inputStarvation t
  | .numericOverflow => .numericOverflow t

/-- A Step that faults stops with its fatal diagnostic, a distinct outcome that holds the state fault entry leaves
(R161, R165). -/
def takeFault (r : FaultReason) (s : State) : Answer := .fault (r.fault (s.raise r))

/-! ## Status, and whether a Step is enabled -/

/-- The status (10_state.md R28). A latch that is set makes a constructed machine Faulted, whatever `running` holds. -/
def State.status (s : State) : Status :=
  if s.constructed then
    if s.latch.cause = .none then (if s.running then .running else .halted) else .faulted
  else .unconstructed

/-- Why a Step is not performed outside status Running (44_host_operations.md R140); `none` in status Running, the one
status in which a Step is enabled (R132). Log 8. -/
def State.notEnabled (s : State) : Option Refusal :=
  match s.status with
  | .unconstructed => some .stepWhenUnconstructed
  | .running => none
  | .halted => some .stepWhenHalted
  | .faulted => some .stepWhenFaulted

end Sys2Proof.Machine
end

