-- ==== Sys2Proof/Machine/Flags.lean ====
section
/-!
DEFINITION. The one flag, `running` (10_state.md R25), and what stands where other machines have an overflow flag: the
overflow policy of Add and Multiply (41_arithmetic.md R103). There are no condition codes.
-/

namespace Sys2Proof.Machine

/-- running <- 0, written by Halt alone (10_state.md R25, 43_control.md R120). -/
def State.clearRunning (s : State) : State := { s with running := false }

/-- wrap_W(t): the unique word congruent to t modulo 2^W, ((t − WORD_MIN) mod 2^W) + WORD_MIN with a floored mod (R103). -/
def wrapTo (W : Nat) (t : Int) : Word := (t - wordMin W) % 2 ^ W + wordMin W

/-- WORD_MAX above the range and WORD_MIN below it (R103). -/
def saturateTo (W : Nat) (t : Int) : Word := if wordMax W < t then wordMax W else wordMin W

/-- Overflow(t) of R103 for the exact result t: `none` stands for `raise NumericOverflow(0, 0)`. -/
def overflowAt (c : Config) (t : Int) : Option Word :=
  if IsWord c.wordBits t then some t
  else
    match c.overflowPolicy with
    | .fault => none
    | .wrap => some (wrapTo c.wordBits t)
    | .saturate => some (saturateTo c.wordBits t)

end Sys2Proof.Machine
end

