-- ==== Sys2Proof/Machine/Operands.lean ====
section
/-!
DEFINITION. RESOLVE: every operand form (40_step_cycle.md R84 to R87, 30_encoding.md R64). Parameters are resolved one
at a time in ascending number; each one's slot is fetched and its address checked before the next one's slot (R86).
Nothing here changes the state.
-/

namespace Sys2Proof.Machine

/-- The address of the slot of parameter i, s_i = pc + i from the un-advanced pc, over the natural numbers (R84, 10_state.md R22). -/
def slotAddress (i : Nat) (s : State) : Nat := s.pc + i

/-- Slot fetch (R84): the raw parameter M[pc + i], or SLOT_OOB. -/
def rawParam (i : Nat) (s : State) : Except FaultReason Word :=
  match s.mem.read (slotAddress i s) with
  | some r => .ok r
  | none => .error (.slotOob (slotAddress i s))

/-- Read resolution (R85): in Immediate mode the raw parameter itself, in Position mode the cell it addresses, or
OPERAND_OOB. -/
def readParam (m : Mode) (i : Nat) (s : State) : Except FaultReason Word :=
  match rawParam i s with
  | .error e => .error e
  | .ok r =>
    match m with
    | .immediate => .ok r
    | .position =>
      match s.mem.read r with
      | some v => .ok v
      | none => .error (.operandOob r)

/-- Write resolution (R87): the raw parameter is the destination address itself, or TARGET_OOB. The content of the
destination cell is not read. -/
def writeParam (i : Nat) (s : State) : Except FaultReason Int :=
  match rawParam i s with
  | .error e => .error e
  | .ok r => if s.mem.InRange r then .ok r else .error (.targetOob r)

/-- The check of a write parameter's mode (30_encoding.md R70 b): it precedes every slot fetch. DECODE has made it
already, so it stops only an instruction that DECODE cannot give (log 10). -/
def writeMode (m : Mode) (word : Word) : Except FaultReason Unit :=
  match m with
  | .position => .ok ()
  | .immediate => .error (.writeImmediate word)

/-- Format F3 (R64): two read parameters and a write parameter. -/
def resolveF3 (m1 m2 m3 : Mode) (word : Word) (s : State) : Except FaultReason (Word × Word × Int) :=
  match writeMode m3 word with
  | .error e => .error e
  | .ok () =>
    match readParam m1 1 s with
    | .error e => .error e
    | .ok a =>
      match readParam m2 2 s with
      | .error e => .error e
      | .ok b =>
        match writeParam 3 s with
        | .error e => .error e
        | .ok d => .ok (a, b, d)

/-- Format F1W (R64): one write parameter. -/
def resolveF1W (m1 : Mode) (word : Word) (s : State) : Except FaultReason Int :=
  match writeMode m1 word with
  | .error e => .error e
  | .ok () => writeParam 1 s

/-- Format F1R (R64): one read parameter. -/
def resolveF1R (m1 : Mode) (s : State) : Except FaultReason Word := readParam m1 1 s

end Sys2Proof.Machine
end

