-- ==== Sys2Proof/Machine/Arithmetic.lean ====
section
/-!
DEFINITION. Add and Multiply (41_arithmetic.md R100 to R103). They differ only in the operation applied to the two
operands (R102).
-/

namespace Sys2Proof.Machine

/-- EXECUTE, WRITEBACK and ADVANCE of an arithmetic instruction whose exact result is `t` (40_step_cycle.md R88, R89). -/
def commitArith (c : Config) (t : Int) (dst : Int) (width : Nat) (s : State) : Answer :=
  match overflowAt c t with
  | none => takeFault .numericOverflow s
  | some res => .next ((s.writeCell dst res).advance width)

/-- Add (R100) on a machine with parameters `c`. -/
def execAddAt (c : Config) (m1 m2 m3 : Mode) (s : State) : Answer :=
  match resolveF3 m1 m2 m3 (encode (.add m1 m2 m3)) s with
  | .error r => takeFault r s
  | .ok (a, b, dst) => commitArith c (a + b) dst Op.add.width s

/-- Multiply (R101) on a machine with parameters `c`. -/
def execMulAt (c : Config) (m1 m2 m3 : Mode) (s : State) : Answer :=
  match resolveF3 m1 m2 m3 (encode (.mul m1 m2 m3)) s with
  | .error r => takeFault r s
  | .ok (a, b, dst) => commitArith c (a * b) dst Op.mul.width s

/-- Add (R100). -/
def execAdd (m1 m2 m3 : Mode) (s : State) : Answer := execAddAt Config.spec m1 m2 m3 s

/-- Multiply (R101). -/
def execMul (m1 m2 m3 : Mode) (s : State) : Answer := execMulAt Config.spec m1 m2 m3 s

end Sys2Proof.Machine
end

