-- ==== Sys2Proof/Machine/Control.lean ====
section
/-!
DEFINITION. Halt, the only instruction that affects control (43_control.md R120 to R123).
-/

namespace Sys2Proof.Machine

/-- Halt (R120): running <- 0, and pc advances by 1 like every other instruction's. -/
def execHalt (s : State) : Answer := .next (s.clearRunning.advance Op.halt.width)

end Sys2Proof.Machine
end

