-- ==== Sys2Proof/Machine/Io.lean ====
section
/-!
DEFINITION. Input and Output (42_io.md R110 to R113).
-/

namespace Sys2Proof.Machine

/-- Input (R110): the oldest queue entry goes to the destination, unchanged; an empty queue is InputStarvation. The
destination is checked first, so a bad one leaves the queue intact (40_step_cycle.md R87). -/
def execInp (m1 : Mode) (s : State) : Answer :=
  match resolveF1W m1 (encode (.inp m1)) s with
  | .error r => takeFault r s
  | .ok dst =>
    match s.inq with
    | [] => takeFault .inputStarvation s
    | res :: _ => .next ((s.popInput.writeCell dst res).advance Op.inp.width)

/-- Output (R111): the operand is appended to the log, unchanged. -/
def execOut (m1 : Mode) (s : State) : Answer :=
  match resolveF1R m1 s with
  | .error r => takeFault r s
  | .ok a => .next ((s.appendOutput a).advance Op.out.width)

end Sys2Proof.Machine
end

