-- ==== Sys2Proof/Machine/Fetch.lean ====
section
/-!
DEFINITION. FETCH and DECODE of a Step (40_step_cycle.md R81 to R83): the word at pc, and the instruction it holds.
-/

namespace Sys2Proof.Machine

/-- FETCH (R81): the instruction word M[pc], or FETCH_OOB. -/
def fetchWord (s : State) : Except FaultReason Word :=
  match s.mem.read (s.pc : Int) with
  | some v => .ok v
  | none => .error (.fetchOob s.pc)

/-- FETCH and DECODE (R82) under a policy for high digits. -/
def fetchWith (p : HighDigitPolicy) (s : State) : Except FaultReason Instr :=
  match fetchWord s with
  | .error r => .error r
  | .ok v =>
    match decodeWith p v with
    | .error e => .error (rejectReason e v)
    | .ok i => .ok i

/-- FETCH and DECODE of the machine with the spec's parameters. -/
def fetch (s : State) : Except FaultReason Instr := fetchWith Config.spec.highDigitPolicy s

end Sys2Proof.Machine
end

