-- ==== Sys2Proof/Machine/Step.lean ====
section
/-!
DEFINITION. One Step (40_step_cycle.md R80), and the placing of an instruction where the next Step fetches.
-/

namespace Sys2Proof.Machine

/-- One Step: enabled only in status Running (R80, 44_host_operations.md R132), it fetches, decodes and executes one
instruction. A fault of any stage is an outcome of its own (60_exceptions.md R165); outside Running the Step is not
performed (R140). -/
def step (s : State) : Host.Outcome State Fault Refusal :=
  match s.notEnabled with
  | some why => .refused why
  | none =>
    match fetch s with
    | .error r => takeFault r s
    | .ok i => exec i s

/-- `s` with an instruction, given as table bits, in the cells at pc, and the machine made ready to fetch it: memory long
enough to hold its four cells and the status Running. It stands for the Construct that loads a program (log 6). -/
def State.withFetchWord (s : State) (nbits w : Nat) : State :=
  { s with
    constructed := true
    mem := s.mem.place s.pc (tableCells nbits w)
    running := true
    latch := .clear }

end Sys2Proof.Machine
end

