-- ==== Sys2Proof/Machine/Parametric.lean ====
section
/-!
DEFINITION. The machine for any value of the parameters of 00_scope.md section 3: `execAt` and `stepAt`. With
`Config.spec` they are `exec` and `step` (Laws/Step.lean proves it). Only Add and Multiply depend on a parameter in
EXECUTE, and only the high-digit test in DECODE.
-/

namespace Sys2Proof.Machine

/-- RESOLVE to ADVANCE of one decoded instruction, on a machine with parameters `c`. -/
def execAt (c : Config) (i : Instr) (s : State) : Answer :=
  match i with
  | .add m1 m2 m3 => execAddAt c m1 m2 m3 s
  | .mul m1 m2 m3 => execMulAt c m1 m2 m3 s
  | .inp m1 => execInp m1 s
  | .out m1 => execOut m1 s
  | .halt => execHalt s

/-- One Step (40_step_cycle.md R80) of a machine with parameters `c`. -/
def stepAt (c : Config) (s : State) : Answer :=
  match s.notEnabled with
  | some why => .refused why
  | none =>
    match fetchWith c.highDigitPolicy s with
    | .error r => takeFault r s
    | .ok i => execAt c i s

end Sys2Proof.Machine
end

