-- ==== Sys2Proof/Machine/Transactions.lean ====
section
/-!
DEFINITION. The four transactions of the host interface (44_host_operations.md R130 to R141): Construct, Step, Run and
Inspect. The machine offers no other (R139).
-/

namespace Sys2Proof.Machine

/-! ## Construct -/

/-- Admission (R131): every value is a word and both lengths are within the capacities. -/
abbrev Admitted (c : Config) (program input : List Word) : Prop :=
  (∀ v ∈ program, IsWord c.wordBits v) ∧ (∀ v ∈ input, IsWord c.wordBits v) ∧
    withinCap c.memCap program.length ∧ withinCap c.inCap input.length

/-- The state an admitted Construct leaves (R130; 70_reset_and_hazards.md R181 to R185); nothing of the state before
survives. -/
def constructedState (program input : List Word) : State where
  constructed := true
  mem := .load program
  pc := 0
  running := true
  inq := input
  outq := []
  latch := .clear

/-- Construct(program, initial_input) in any status (R130); one that is not admitted is refused (R131). -/
def construct (c : Config) (program input : List Word) : Answer :=
  if Admitted c program input then .next (constructedState program input) else .refused .constructNotAdmitted

/-! ## Step and Run -/

/-- The state after a request: the next state or the state a fault leaves, and the state as it was where the request was
turned away (R131, R140, 60_exceptions.md R161). -/
def afterAnswer (o : Answer) (s : State) : State := (stateAfter o).getD s

/-- The Step transaction (R132, R140) of a machine whose steps are `f`. -/
def stepTransaction (f : State → Answer) (s : State) : State := afterAnswer (f s) s

/-- The loop of Run (R134), at most `fuel` times around. -/
def runFuel (f : State → Answer) : Nat → State → State
  | 0, s => s
  | fuel + 1, s => if s.status = .running then runFuel f fuel (stepTransaction f s) else s

/-- The number of Steps within which every run ends (43_control.md R122, R135). -/
def stepBound (s : State) : Nat := s.mem.len / 2 + 1

/-- Run (R134) on a machine with parameters `c`. R135 shows that the bound never cuts a run short. Log 14. -/
def runAt (c : Config) (s : State) : State := runFuel (stepAt c) (stepBound s) s

/-- Run (R134). -/
def run (s : State) : State := runFuel step (stepBound s) s

/-! ## Inspect -/

/-- What the host may read (R137); the input queue is not part of it (R138). -/
inductive Query where
  | len
  | cell (a : Int)
  | outLen
  | outEntry (k : Int)
  | pc
  | running
  | faultCause
  | faultSub
  | faultPc
  | faultInfo
  deriving DecidableEq, Repr

/-- The value an entry of the log has at an index, `none` where there is no entry. -/
def logEntry (outq : List Word) (k : Int) : Option Word := if 0 ≤ k then outq[k.toNat]? else none

/-- A value that exists, or the refusal of an invalid index (R137). Log 13. -/
def orInvalidIndex : Option Word → Except Refusal Int
  | some v => .ok v
  | none => .error .inspectInvalidIndex

/-- Inspect (R137): allowed in any status after a Construct; it changes nothing, so it gives a value and no state. -/
def inspect (q : Query) (s : State) : Except Refusal Int :=
  if s.constructed then
    match q with
    | .len => .ok s.mem.len
    | .cell a => orInvalidIndex (s.mem.read a)
    | .outLen => .ok s.outq.length
    | .outEntry k => orInvalidIndex (logEntry s.outq k)
    | .pc => .ok s.pc
    | .running => .ok (if s.running then 1 else 0)
    | .faultCause => .ok s.latch.cause.code
    | .faultSub => .ok s.latch.sub
    | .faultPc => .ok s.latch.pc
    | .faultInfo => .ok s.latch.info
  else .error .inspectWhenUnconstructed

/-! ## Any transaction, and a session of them -/

/-- A transaction the host issues (R141). -/
inductive Transaction where
  | construct (program input : List Word)
  | step
  | run
  | inspect (q : Query)
  deriving DecidableEq, Repr

/-- The effect of one transaction on the machine (the table of R141). -/
def perform (c : Config) (t : Transaction) (s : State) : State :=
  match t with
  | .construct program input => afterAnswer (construct c program input) s
  | .step => stepTransaction (stepAt c) s
  | .run => runAt c s
  | .inspect _ => s

/-- What the host gets back from one transaction (the table of R141): nothing, a value, or a refusal. A Step that faults
gives nothing back either: the host reads the latch by Inspect. -/
def answerTo (c : Config) (t : Transaction) (s : State) : Except Refusal (Option Int) :=
  match t with
  | .construct program input => if Admitted c program input then .ok none else .error .constructNotAdmitted
  | .step =>
    match stepAt c s with
    | .next _ => .ok none
    | .fault _ => .ok none
    | .refused r => .error r
  | .run => if s.constructed then .ok none else .error .runWhenUnconstructed
  | .inspect q =>
    match inspect q s with
    | .ok v => .ok (some v)
    | .error r => .error r

/-- The state after a sequence of transactions. -/
def performAll (c : Config) : List Transaction → State → State
  | [], s => s
  | t :: rest, s => performAll c rest (perform c t s)

end Sys2Proof.Machine
end

