-- ==== Sys2Proof/Safety.lean ====
section
/-!
DEFINITION. What the claims speak of: the invariant of a constructed machine, the end of a run, the operands an
instruction has in a state, and what it means for a Step to complete or to fault.
-/

namespace Sys2Proof.Machine

/-- The latch holds one of the records of 60_exceptions.md R150 to R154, or is clear. -/
def FaultLatch.Legal (d : FaultLatch) : Prop :=
  match d.cause with
  | .none => d = FaultLatch.clear
  | .decodeError => 1 ≤ d.sub ∧ d.sub ≤ 3
  | .addressingError => 1 ≤ d.sub ∧ d.sub ≤ 5
  | .inputStarvation => d.sub = 0 ∧ d.info = 0
  | .numericOverflow => d.sub = 0 ∧ d.info = 0

/-- What holds of a constructed machine between Steps. -/
structure State.Inv (c : Config) (s : State) : Prop where
  /-- Memory is in its canonical form. -/
  memWf : s.mem.wf
  /-- Every listed cell holds a word (00_scope.md R4); a cell not listed holds 0. -/
  memWords : ∀ x ∈ s.mem.cells, IsWord c.wordBits x.2
  /-- len ≤ MEM_CAP (10_state.md R21). -/
  memCap : withinCap c.memCap s.mem.len
  /-- pc ≤ len (10_state.md R24). -/
  pcRange : s.pc ≤ s.mem.len
  /-- Every queue entry is a word (00_scope.md R4). -/
  inqWords : ∀ v ∈ s.inq, IsWord c.wordBits v
  /-- len(inq) ≤ IN_CAP (10_state.md R30). -/
  inqCap : withinCap c.inCap s.inq.length
  /-- Every log entry is a word (00_scope.md R4). -/
  outqWords : ∀ v ∈ s.outq, IsWord c.wordBits v
  /-- Each Output took two cells that pc has passed (43_control.md R122 c). -/
  outqLen : 2 * s.outq.length ≤ s.pc
  /-- The latch is clear or holds a record of the spec. -/
  latchLegal : s.latch.Legal
  /-- In status Faulted, running is still 1 and fault_pc is pc (10_state.md R27, R28). -/
  faultedShape : s.latch.cause ≠ .none → s.running = true ∧ s.latch.pc = s.pc

/-- The invariant of a machine that may not have been constructed yet: before the first Construct nothing is known
(70_reset_and_hazards.md R180). -/
def State.InvIfConstructed (c : Config) (s : State) : Prop := s.constructed = true → s.Inv c

/-- A run has ended when the status is Halted or Faulted (44_host_operations.md R136). -/
def State.Ended (s : State) : Prop := s.status = .halted ∨ s.status = .faulted

/-- A run has ended successfully, and its state is final, exactly when the status is Halted (R136). -/
def State.Final (s : State) : Prop := s.status = .halted

/-- Read parameter `i` of the instruction at pc has the value `v` (40_step_cycle.md R85): its slot holds a raw
parameter, which is the value in Immediate mode and the address of the value in Position mode. -/
def State.Operand (s : State) (m : Mode) (i : Nat) (v : Word) : Prop :=
  ∃ r, s.mem.read (slotAddress i s) = some r ∧
    match m with
    | .immediate => v = r
    | .position => s.mem.read r = some v

/-- Write parameter `i` of the instruction at pc names the valid address `d` (R87). -/
def State.Target (s : State) (i : Nat) (d : Int) : Prop :=
  s.mem.read (slotAddress i s) = some d ∧ 0 ≤ d ∧ d < (s.mem.len : Int)

/-- The address an instruction stores to, by the function its meaning uses (R87); `none` for a form that stores nothing
or whose write parameter does not resolve. -/
def storeAddress (i : Instr) (s : State) : Option Int :=
  match i with
  | .add _ _ _ => (writeParam 3 s).toOption
  | .mul _ _ _ => (writeParam 3 s).toOption
  | .inp _ => (writeParam 1 s).toOption
  | .out _ => none
  | .halt => none

/-- The fault `f` of a Step from `s` is the diagnostic of `r`: it has the class of `r`, the latch is set and nothing else
has changed (60_exceptions.md R161, R162). -/
def FaultsWith (s : State) (r : FaultReason) (f : Fault) : Prop :=
  f = r.fault { s with latch := ⟨r.cause, r.sub, s.pc, r.info⟩ }

/-- How many of the first `n` Steps from `s` complete and execute one of the instruction words `ws`: completed Input
Steps are those of the word 3, completed Output Steps those of 4 and 104 (30_encoding.md R71, 42_io.md R112). -/
def countSteps (ws : List Word) : Nat → State → Nat
  | 0, _ => 0
  | n + 1, s =>
    match step s with
    | .next t =>
      (if (ws.any fun v => s.mem.read (s.pc : Int) == some v) = true then 1 else 0) +
        countSteps ws n t
    | .fault _ => 0
    | .refused _ => 0

/-- The faults an instruction can raise once it is fetched and decoded (the table of 60_exceptions.md R155 from SLOT_OOB
down, and WRITE_IMMEDIATE for an instruction DECODE cannot give, log 10). -/
def CanRaise (i : Instr) (r : FaultReason) : Prop :=
  match i, r with
  | .add _ _ _, .slotOob _ | .add _ _ _, .operandOob _ | .add _ _ _, .targetOob _ | .add _ _ _, .numericOverflow => True
  | .mul _ _ _, .slotOob _ | .mul _ _ _, .operandOob _ | .mul _ _ _, .targetOob _ | .mul _ _ _, .numericOverflow => True
  | .inp _, .slotOob _ | .inp _, .targetOob _ | .inp _, .inputStarvation => True
  | .out _, .slotOob _ | .out _, .operandOob _ => True
  | i, .writeImmediate v => i.wf = false ∧ v = encode i
  | _, _ => False

/-- Whether a transaction is a Construct. -/
def Transaction.isConstruct : Transaction → Bool
  | .construct _ _ => true
  | .step => false
  | .run => false
  | .inspect _ => false

end Sys2Proof.Machine
end

