-- ==== Sys2Proof/Certificates/Slice0/Obligations.lean ====
section
/-!
DEFINITION. The statements about the machine, for the provers. `exec`, `step` and `run` are the machine with the spec's
parameter values (W = 64, both policies `fault`); `execAt`, `stepAt` and `runAt` are the machine with any.

Rules that the spec marks as its own decision or derivation are named so in the docstrings that rest on them.
-/

open Sys2Proof Sys2Proof.Machine

/-! ## Encoding -/

/-- Words written out digit by digit from 30_encoding.md R62, R66, R68 decode to the instructions they stand for. Words
are rejected for the reason the spec gives each: 0 (R69); −1 (R61, the spec's decision D4); 2001, 10099 and 11102 (examples
of R71, its decision D6); 110001 (the example of R72, its decision D8), and the same word under `ignore` (R71, D6). -/
def Obligations.WrittenOutWordsDecode : Prop :=
  decode 1 = .ok (.add .position .position .position) ∧
  decode 101 = .ok (.add .immediate .position .position) ∧
  decode 1002 = .ok (.mul .position .immediate .position) ∧
  decode 1101 = .ok (.add .immediate .immediate .position) ∧
  decode 3 = .ok (.inp .position) ∧
  decode 104 = .ok (.out .immediate) ∧
  decode 99 = .ok .halt ∧
  decode 0 = .error .unknownOpcode ∧
  decode (-1) = .error .unknownOpcode ∧
  decode 2001 = .error .invalidMode ∧
  decode 10099 = .error .reservedDigits ∧
  decode 11102 = .error .writeImmediate ∧
  decode 110001 = .error .reservedDigits ∧
  decodeWith .ignore 110001 = .error .writeImmediate

/-- Under either policy for high digits, the word of a well-formed instruction decodes to that instruction (R74, R66). -/
def Obligations.EncodedWordDecodesBack : Prop :=
  ∀ (p : HighDigitPolicy) (i : Instr), i.wf = true → decodeWith p (encode i) = .ok i

/-- R71 (decision D6): the legal instruction words are exactly the twelve encodings, over all integers. -/
def Obligations.LegalWordsAreExactlyTheEncodings : Prop :=
  (∀ (v : Int) (i : Instr), decode v = .ok i ↔ i.wf = true ∧ v = encode i) ∧
  ∀ v : Int, (∃ i, decode v = .ok i) ↔ v ∈ [(1 : Int), 101, 1001, 1101, 2, 102, 1002, 1102, 3, 4, 104, 99]

/-- R71 (decision D6), HIGH_DIGIT_POLICY = ignore: a word decodes by its opcode and mode digits alone. -/
def Obligations.IgnorePolicyReadsOnlyTheFields : Prop :=
  ∀ (v : Int) (i : Instr),
    decodeWith .ignore v = .ok i ↔ 0 ≤ v ∧ i.wf = true ∧ v % 10 ^ (i.width + 1) = encode i

/-- R72 (decision D8): a word with several defects is rejected for the first in the order of that rule, for each
operation of the catalog and under either policy. -/
def Obligations.RejectionsComeInOrder : Prop :=
  ∀ (p : HighDigitPolicy) (v : Nat),
    (v % 100 = 1 ∨ v % 100 = 2 →
      (decodeWith p v = .error .invalidMode ↔ 2 ≤ digit 2 v ∨ 2 ≤ digit 3 v ∨ 2 ≤ digit 4 v) ∧
      (decodeWith p v = .error .reservedDigits ↔
        digit 2 v ≤ 1 ∧ digit 3 v ≤ 1 ∧ digit 4 v ≤ 1 ∧ p = .fault ∧ v / 100000 ≠ 0) ∧
      (decodeWith p v = .error .writeImmediate ↔
        digit 2 v ≤ 1 ∧ digit 3 v ≤ 1 ∧ digit 4 v = 1 ∧ (p = .fault → v / 100000 = 0))) ∧
    (v % 100 = 3 →
      (decodeWith p v = .error .invalidMode ↔ 2 ≤ digit 2 v) ∧
      (decodeWith p v = .error .reservedDigits ↔ digit 2 v ≤ 1 ∧ p = .fault ∧ v / 1000 ≠ 0) ∧
      (decodeWith p v = .error .writeImmediate ↔ digit 2 v = 1 ∧ (p = .fault → v / 1000 = 0))) ∧
    (v % 100 = 4 →
      (decodeWith p v = .error .invalidMode ↔ 2 ≤ digit 2 v) ∧
      (decodeWith p v = .error .reservedDigits ↔ digit 2 v ≤ 1 ∧ p = .fault ∧ v / 1000 ≠ 0) ∧
      decodeWith p v ≠ .error .writeImmediate) ∧
    (v % 100 = 99 →
      decodeWith p v ≠ .error .invalidMode ∧
      (decodeWith p v = .error .reservedDigits ↔ p = .fault ∧ v / 100 ≠ 0) ∧
      decodeWith p v ≠ .error .writeImmediate)

/-- R74, R43: a whole instruction, with any operands at all, is read back from its cells, and only its own cells give it. -/
def Obligations.AssembledCellsReadBack : Prop :=
  (∀ (l : AsmLine) (rest : List Word), disassemble (assemble l ++ rest) = some (l, rest)) ∧
  ∀ (cells : List Word) (l : AsmLine) (rest : List Word),
    disassemble cells = some (l, rest) → cells = assemble l ++ rest

/-! ## The Step -/

/-- R80, R82: in status Running, when the word at pc decodes to an instruction, that instruction is well-formed and the
Step is its meaning at this very state (pc advances inside the meaning, at its end). -/
def Obligations.StepRunsTheDecodedInstruction : Prop :=
  ∀ (s : State) (v : Int) (i : Instr),
    s.status = .running → s.mem.read (s.pc : Int) = some v → decode v = .ok i →
      i.wf = true ∧ step s = exec i s

/-- R81 (decision D7): a Step whose pc is no valid address raises FETCH_OOB with info pc, and changes only the latch. The
fault carries the state it leaves (log 7). -/
def Obligations.FetchOutsideMemoryFaults : Prop :=
  ∀ s : State, s.status = .running → s.mem.len ≤ s.pc →
    step s = .fault (.addressingError { s with latch := ⟨.addressingError, 1, s.pc, (s.pc : Int)⟩ })

/-- R69: every opcode value other than 1, 2, 3, 4 and 99 raises DecodeError UNKNOWN_OPCODE with the whole word as info,
under either policy for high digits; in particular the words 0 and 100. -/
def Obligations.UnknownOpcodeFaults : Prop :=
  (∀ (c : Config) (s : State) (v : Int), s.status = .running → s.mem.read (s.pc : Int) = some v → 0 ≤ v →
    v % 100 ∉ [(1 : Int), 2, 3, 4, 99] →
      stepAt c s = .fault (.decodeError { s with latch := ⟨.decodeError, 1, s.pc, v⟩ }) ∧
      step s = .fault (.decodeError { s with latch := ⟨.decodeError, 1, s.pc, v⟩ })) ∧
  (0 : Int) % 100 ∉ [(1 : Int), 2, 3, 4, 99] ∧ (100 : Int) % 100 ∉ [(1 : Int), 2, 3, 4, 99]

/-- R61 (decision D4): a negative word is no instruction; it raises UNKNOWN_OPCODE. -/
def Obligations.NegativeWordFaults : Prop :=
  ∀ (s : State) (v : Int), s.status = .running → s.mem.read (s.pc : Int) = some v → v < 0 →
    step s = .fault (.decodeError { s with latch := ⟨.decodeError, 1, s.pc, v⟩ })

/-- R83: when DECODE rejects the word, only the latch changes; fault_info is the whole word and fault_pc is pc. The class
and sub-cause of each rejection, in the last clause, are those of R151 (the spec's decisions D4, D5 and D6) and R152 (its
decisions D7 and D11). -/
def Obligations.DecodeFailureChangesOnlyTheLatch : Prop :=
  ∀ (s : State) (v : Int) (e : Reject),
    s.status = .running → s.mem.read (s.pc : Int) = some v → decode v = .error e →
      ∃ f, step s = .fault f ∧
        f.after.mem = s.mem ∧ f.after.pc = s.pc ∧ f.after.running = s.running ∧ f.after.inq = s.inq ∧
        f.after.outq = s.outq ∧ f.after.constructed = s.constructed ∧ f.after.latch.pc = s.pc ∧ f.after.latch.info = v ∧
        f.after.status = .faulted ∧ (f.after.latch.cause, f.after.latch.sub) =
          match e with
          | .unknownOpcode => (FaultCause.decodeError, 1)
          | .invalidMode => (FaultCause.decodeError, 2)
          | .reservedDigits => (FaultCause.decodeError, 3)
          | .writeImmediate => (FaultCause.addressingError, 2)

/-- R90, R157, R162, R192 (derived; decision D9): a Step requested in status Running does happen, and it is all or
nothing. Either it answers a next state: an instruction was fetched and completed, and pc has advanced by its width with
the latch unchanged. Or it answers a fault, and the latch, set with fault_pc = pc, is the only change. -/
def Obligations.StepIsAllOrNothing : Prop :=
  ∀ (c : Config) (s : State), s.status = .running →
    (∃ t v i, stepAt c s = .next t ∧ s.mem.read (s.pc : Int) = some v ∧ decodeWith c.highDigitPolicy v = .ok i ∧
      execAt c i s = .next t ∧ t.pc = s.pc + i.width ∧ t.pc ≤ s.mem.len ∧ t.latch = s.latch) ∨
    ∃ f r, stepAt c s = .fault f ∧ FaultsWith s r f ∧ f.after.status = .faulted

/-- R23: a Step that completes advances pc by the width of its instruction, 4 for Add and Multiply, 2 for Input and
Output, 1 for Halt; a Step that faults leaves pc unchanged (for faults other than decode errors R162, the spec's decision
D9); a Step that does not happen, Inspect and a refused Construct leave it unchanged too. -/
def Obligations.PcAdvancesByTheWidth : Prop :=
  (∀ s t : State, step s = .next t →
    ∃ v i, s.mem.read (s.pc : Int) = some v ∧ decode v = .ok i ∧
      t.pc = s.pc +
        match i with
        | .add _ _ _ => 4
        | .mul _ _ _ => 4
        | .inp _ => 2
        | .out _ => 2
        | .halt => 1) ∧
  (∀ (s : State) (f : Fault), step s = .fault f → f.after.pc = s.pc) ∧
  (∀ (c : Config) (s : State), s.status ≠ .running → (perform c .step s).pc = s.pc ∧ (perform c .run s).pc = s.pc) ∧
  (∀ (c : Config) (s : State) (q : Query), (perform c (.inspect q) s).pc = s.pc) ∧
  ∀ (c : Config) (program input : List Word) (s : State), ¬ Admitted c program input →
    (perform c (.construct program input) s).pc = s.pc

/-- R140 (decision D12): outside status Running no Step is performed: no next state follows and no fault is raised, and
neither a Step nor a Run transaction changes anything, the latch included. -/
def Obligations.NoStepOutsideRunning : Prop :=
  ∀ (c : Config) (s : State), s.status ≠ .running →
    (∀ t, stepAt c s ≠ .next t) ∧ (∀ f, stepAt c s ≠ .fault f) ∧ (∀ t, step s ≠ .next t) ∧ (∀ f, step s ≠ .fault f) ∧
    perform c .step s = s ∧ perform c .run s = s

/-- What a Step is called where it gives no next state (model's choice, logs 7 and 8): outside status Running it is refused,
by a name for each status; and a Step that faults answers the fault whose name is the class in the latch it leaves. -/
def Obligations.StopsAreNamed : Prop :=
  (∀ s : State,
    (s.status = .halted → step s = .refused .stepWhenHalted) ∧
    (s.status = .unconstructed → step s = .refused .stepWhenUnconstructed) ∧
    (s.status = .faulted → step s = .refused .stepWhenFaulted)) ∧
  ∀ (s : State) (f : Fault), step s = .fault f →
    (f.after.latch.cause = .decodeError ∧ f = .decodeError f.after) ∨
    (f.after.latch.cause = .addressingError ∧ f = .addressingError f.after) ∨
    (f.after.latch.cause = .inputStarvation ∧ f = .inputStarvation f.after) ∨
    (f.after.latch.cause = .numericOverflow ∧ f = .numericOverflow f.after)

/-- R165 (derived): a fault is a distinct outcome of the step function. The state it leaves is Faulted and not final, it is
the state of the machine after the Step transaction, and no Step, Run or sequence of transactions without a Construct goes
on from it or clears its latch; a Run that reaches it ends there, so it is not a run to Halted. A Step that answers a next
state has raised no fault. -/
def Obligations.FaultIsADistinctOutcome : Prop :=
  ∀ c : Config,
    (∀ (s : State) (f : Fault), stepAt c s = .fault f →
      f.after.status = .faulted ∧ ¬ f.after.Final ∧ perform c .step s = f.after ∧ runAt c s = f.after ∧
      (∀ t, stepAt c f.after ≠ .next t) ∧ (∀ g, stepAt c f.after ≠ .fault g) ∧
      ∀ txs : List Transaction, (∀ tx ∈ txs, tx.isConstruct = false) → performAll c txs f.after = f.after) ∧
    ∀ s t : State, stepAt c s = .next t → t.status ≠ .faulted ∧ t.latch = s.latch ∧ perform c .step s = t

/-! ## Results: where each instruction completes -/

/-- R100: Add with readable operands, a valid destination and a sum that is a word writes the exact sum there and advances
pc by 4; nothing else changes. The destination may be any valid cell, the instruction's own cells included (R53). -/
def Obligations.AddCompletes : Prop :=
  ∀ (m1 m2 : Mode) (s : State) (a b : Int) (d : Int),
    s.Operand m1 1 a → s.Operand m2 2 b → s.Target 3 d → IsWord 64 (a + b) →
      exec (.add m1 m2 .position) s = .next { s with mem := s.mem.write d (a + b), pc := s.pc + 4 }

/-- R101: Multiply, as Add, with the exact signed product. -/
def Obligations.MultiplyCompletes : Prop :=
  ∀ (m1 m2 : Mode) (s : State) (a b : Int) (d : Int),
    s.Operand m1 1 a → s.Operand m2 2 b → s.Target 3 d → IsWord 64 (a * b) →
      exec (.mul m1 m2 .position) s = .next { s with mem := s.mem.write d (a * b), pc := s.pc + 4 }

/-- R110: Input with a valid destination and a non-empty queue removes the oldest entry, stores it unchanged and advances
pc by 2; nothing else changes. -/
def Obligations.InputCompletes : Prop :=
  ∀ (s : State) (x : Int) (rest : List Word) (d : Int),
    s.Target 1 d → s.inq = x :: rest →
      exec (.inp .position) s = .next { s with mem := s.mem.write d x, inq := rest, pc := s.pc + 2 }

/-- R111: Output with a readable operand appends it unchanged at the end of the log and advances pc by 2; nothing else
changes. -/
def Obligations.OutputCompletes : Prop :=
  ∀ (m1 : Mode) (s : State) (a : Int),
    s.Operand m1 1 a → exec (.out m1) s = .next { s with outq := s.outq ++ [a], pc := s.pc + 2 }

/-- R120: Halt clears running and advances pc by 1, in every state; a Step in status Running that fetches the word 99 does
exactly that, and the status is then Halted. -/
def Obligations.HaltCompletes : Prop :=
  (∀ s : State, exec .halt s = .next { s with running := false, pc := s.pc + 1 }) ∧
  ∀ s : State, s.status = .running → s.mem.read (s.pc : Int) = some 99 →
    ∃ t, step s = .next t ∧ t = { s with running := false, pc := s.pc + 1 } ∧ t.status = .halted

/-- Under every setting of the parameters, Add and Multiply write what Overflow(t) gives of the exact result t, where it
gives a word (R100, R101, R103). -/
def Obligations.ArithmeticCompletesUnderEveryPolicy : Prop :=
  ∀ (c : Config) (m1 m2 : Mode) (s : State) (a b : Int) (d : Int) (res : Int),
    s.Operand m1 1 a → s.Operand m2 2 b → s.Target 3 d →
      (overflowAt c (a + b) = some res →
        execAt c (.add m1 m2 .position) s = .next { s with mem := s.mem.write d res, pc := s.pc + 4 }) ∧
      (overflowAt c (a * b) = some res →
        execAt c (.mul m1 m2 .position) s = .next { s with mem := s.mem.write d res, pc := s.pc + 4 })

/-- R50 (derived): operands are read before the result is written, so an instruction whose operands and destination are
one cell computes from its old content: Add doubles it and Multiply squares it. -/
def Obligations.OperandsAreReadBeforeTheWrite : Prop :=
  ∀ (s : State) (d : Int) (x : Int), s.mem.wf →
    (∀ k ∈ [1, 2, 3], s.mem.read (slotAddress k s) = some d) → s.mem.read d = some x →
      (IsWord 64 (x + x) → ∃ t, exec (.add .position .position .position) s = .next t ∧ t.mem.read d = some (x + x)) ∧
      (IsWord 64 (x * x) → ∃ t, exec (.mul .position .position .position) s = .next t ∧ t.mem.read d = some (x * x))

/-- R52: a word written by one Step is what the very next Step fetches: when Add, Multiply or Input stores into the cell
after its own last one, and that word is an instruction, the next Step runs that instruction. -/
def Obligations.StoredWordIsFetchedNext : Prop :=
  ∀ (s : State) (m1 m2 : Mode) (a b : Int) (rest : List Word) (i : Instr),
    s.mem.wf → s.status = .running →
      (s.Operand m1 1 a → s.Operand m2 2 b → s.Target 3 (slotAddress 4 s) →
        (IsWord 64 (a + b) → decode (a + b) = .ok i →
          ∃ t, exec (.add m1 m2 .position) s = .next t ∧ step t = exec i t) ∧
        (IsWord 64 (a * b) → decode (a * b) = .ok i →
          ∃ t, exec (.mul m1 m2 .position) s = .next t ∧ step t = exec i t)) ∧
      (s.Target 1 (slotAddress 2 s) → s.inq = a :: rest → decode a = .ok i →
        ∃ t, exec (.inp .position) s = .next t ∧ step t = exec i t)

/-! ## Arithmetic -/

/-- R103 (decision D2): Overflow(t) is t for a t in range under every policy; out of range it is NumericOverflow under
`fault`, the one word congruent to t modulo 2^W under `wrap`, and the nearer bound under `saturate`. -/
def Obligations.OverflowFollowsThePolicy : Prop :=
  ∀ (c : Config) (t : Int), 1 ≤ c.wordBits →
    (IsWord c.wordBits t → overflowAt c t = some t) ∧
    (¬ IsWord c.wordBits t → c.overflowPolicy = .fault → overflowAt c t = none) ∧
    (¬ IsWord c.wordBits t → c.overflowPolicy = .wrap →
      ∃ r, overflowAt c t = some r ∧ IsWord c.wordBits r ∧ (2 ^ c.wordBits : Int) ∣ r - t ∧
        ∀ r', IsWord c.wordBits r' → (2 ^ c.wordBits : Int) ∣ r' - t → r' = r) ∧
    (¬ IsWord c.wordBits t → c.overflowPolicy = .saturate →
      (wordMax c.wordBits < t → overflowAt c t = some (wordMax c.wordBits)) ∧
      (t < wordMin c.wordBits → overflowAt c t = some (wordMin c.wordBits)))

/-- R154: with readable operands and a valid destination, an exact sum or product that is no word raises NumericOverflow
with sub-cause 0 and info 0; nothing is written and pc stays. -/
def Obligations.OverflowFaults : Prop :=
  ∀ (m1 m2 : Mode) (s : State) (a b : Int) (d : Int),
    s.Operand m1 1 a → s.Operand m2 2 b → s.Target 3 d →
      (¬ IsWord 64 (a + b) →
        exec (.add m1 m2 .position) s = .fault (.numericOverflow { s with latch := ⟨.numericOverflow, 0, s.pc, 0⟩ })) ∧
      (¬ IsWord 64 (a * b) →
        exec (.mul m1 m2 .position) s = .fault (.numericOverflow { s with latch := ⟨.numericOverflow, 0, s.pc, 0⟩ }))

/-- R104 (derived): words of opposite sign never overflow when added; a product by 0 or 1 and the negation of every word
but WORD_MIN stay in range, and the negation of WORD_MIN and the bounds' neighbours do not. -/
def Obligations.ArithmeticStaysInRange : Prop :=
  ∀ (W : Nat) (a b : Int), 1 ≤ W → IsWord W a → IsWord W b →
    (a ≤ 0 → 0 ≤ b → IsWord W (a + b) ∧ IsWord W (b + a)) ∧
    IsWord W (a * 0) ∧ IsWord W (a * 1) ∧
    (IsWord W (a * (-1)) ↔ a ≠ wordMin W) ∧
    ¬ IsWord W (wordMax W + 1) ∧ ¬ IsWord W (wordMin W + (-1)) ∧ IsWord W (wordMax W + wordMin W)

/-! ## Faults of resolution and input -/

/-- R84: the slot address is s_i = pc + i, the raw parameter is M[s_i], and if s_i ≥ len the Step raises SLOT_OOB with
info s_i, for every parameter of every instruction that has one, once the parameters before it are resolved. -/
def Obligations.MissingSlotFaults : Prop :=
  (∀ (i : Nat) (s : State), slotAddress i s = s.pc + i) ∧
  (∀ (i : Nat) (s : State) (r : Int), s.mem.read ((s.pc + i : Nat) : Int) = some r → rawParam i s = .ok r) ∧
  ∀ (m1 m2 : Mode) (s : State) (a b : Int),
    (s.mem.len ≤ s.pc + 1 →
      ∀ i ∈ [Instr.add m1 m2 .position, .mul m1 m2 .position, .inp .position, .out m1],
        exec i s = .fault (.addressingError { s with latch := ⟨.addressingError, 3, s.pc, ((s.pc + 1 : Nat) : Int)⟩ })) ∧
    (s.Operand m1 1 a → s.mem.len ≤ s.pc + 2 →
      ∀ i ∈ [Instr.add m1 m2 .position, .mul m1 m2 .position],
        exec i s = .fault (.addressingError { s with latch := ⟨.addressingError, 3, s.pc, ((s.pc + 2 : Nat) : Int)⟩ })) ∧
    (s.Operand m1 1 a → s.Operand m2 2 b → s.mem.len ≤ s.pc + 3 →
      ∀ i ∈ [Instr.add m1 m2 .position, .mul m1 m2 .position],
        exec i s = .fault (.addressingError { s with latch := ⟨.addressingError, 3, s.pc, ((s.pc + 3 : Nat) : Int)⟩ }))

/-- R85: in Immediate mode a read parameter is the raw parameter, with no bounds test; in Position mode it is the cell the
raw parameter addresses, and an address that is not valid raises OPERAND_OOB with the raw parameter as info, whatever
the parameters after it are (the order of R86, the spec's decision D8). -/
def Obligations.ReadParametersResolve : Prop :=
  (∀ (i : Nat) (s : State) (r : Int), s.mem.read (slotAddress i s) = some r →
    readParam .immediate i s = .ok r ∧
    (∀ v, s.mem.read r = some v → readParam .position i s = .ok v) ∧
    (¬ (0 ≤ r ∧ r < (s.mem.len : Int)) → readParam .position i s = .error (.operandOob r))) ∧
  ∀ (m1 m2 : Mode) (s : State) (a r : Int), ¬ (0 ≤ r ∧ r < (s.mem.len : Int)) →
    (s.mem.read (slotAddress 1 s) = some r →
      ∀ i ∈ [Instr.add .position m2 .position, .mul .position m2 .position, .out .position],
        exec i s = .fault (.addressingError { s with latch := ⟨.addressingError, 4, s.pc, r⟩ })) ∧
    (s.Operand m1 1 a → s.mem.read (slotAddress 2 s) = some r →
      ∀ i ∈ [Instr.add m1 .position .position, .mul m1 .position .position],
        exec i s = .fault (.addressingError { s with latch := ⟨.addressingError, 4, s.pc, r⟩ }))

/-- R87: a write parameter's raw value is the destination address; a destination that is not valid raises TARGET_OOB with
the raw parameter as info, before EXECUTE: an Input keeps its queue and does not report starvation, and an Add or
Multiply does not report overflow. The mode of a decoded write parameter is always Position. -/
def Obligations.WriteParametersResolve : Prop :=
  (∀ (i : Nat) (s : State) (r : Int), s.mem.read (slotAddress i s) = some r →
    (0 ≤ r ∧ r < (s.mem.len : Int) → writeParam i s = .ok r) ∧
    (¬ (0 ≤ r ∧ r < (s.mem.len : Int)) → writeParam i s = .error (.targetOob r))) ∧
  (∀ (m1 m2 : Mode) (s : State) (a b r : Int), ¬ (0 ≤ r ∧ r < (s.mem.len : Int)) →
    (s.Operand m1 1 a → s.Operand m2 2 b → s.mem.read (slotAddress 3 s) = some r →
      ∀ i ∈ [Instr.add m1 m2 .position, .mul m1 m2 .position],
        exec i s = .fault (.addressingError { s with latch := ⟨.addressingError, 5, s.pc, r⟩ })) ∧
    (s.mem.read (slotAddress 1 s) = some r →
      exec (.inp .position) s = .fault (.addressingError { s with latch := ⟨.addressingError, 5, s.pc, r⟩ }))) ∧
  ∀ (p : HighDigitPolicy) (v : Int) (i : Instr), decodeWith p v = .ok i → i.wf = true

/-- R153: an Input whose destination is valid and whose queue is empty raises InputStarvation (code 3) with sub-cause 0
and info 0, and stores no default value. -/
def Obligations.EmptyQueueFaults : Prop :=
  FaultCause.inputStarvation.code = 3 ∧
  ∀ (s : State) (d : Int), s.Target 1 d → s.inq = [] →
    exec (.inp .position) s = .fault (.inputStarvation { s with latch := ⟨.inputStarvation, 0, s.pc, 0⟩ })

/-- The model's reading of an instruction that DECODE cannot give (log 10, DEDUCED): a write parameter in Immediate mode
raises WRITE_IMMEDIATE before anything is fetched, with the instruction's word as info. -/
def Obligations.IllFormedInstructionFaults : Prop :=
  ∀ (i : Instr) (s : State), i.wf = false →
    exec i s = .fault (.addressingError { s with latch := ⟨.addressingError, 2, s.pc, encode i⟩ })

/-- R155 (derived): a fault that a decoded instruction raises is one of those the table gives it, with nothing changed but
the latch; an instruction that completes leaves the latch as it was. -/
def Obligations.InstructionsRaiseOnlyTheirFaults : Prop :=
  ∀ (c : Config) (i : Instr) (s : State),
    (∀ f, execAt c i s = .fault f → ∃ r, CanRaise i r ∧ FaultsWith s r f) ∧
    ∀ t, execAt c i s = .next t → t.latch = s.latch

/-! ## Frames -/

/-- Add and Multiply, every form: where they complete, they change nothing but pc and the one cell they store to; where
they fault, nothing but the latch. -/
def Obligations.ArithmeticFrame : Prop :=
  ∀ (m1 m2 m3 : Mode) (s : State), ∀ i ∈ [Instr.add m1 m2 m3, .mul m1 m2 m3],
    (∀ t, exec i s = .next t →
      t.constructed = s.constructed ∧ t.running = s.running ∧ t.inq = s.inq ∧ t.outq = s.outq ∧ t.latch = s.latch ∧
      t.mem.len = s.mem.len ∧ storeAddress i s ≠ none ∧
      ∀ d, storeAddress i s = some d → ∀ x, x ≠ d → t.mem.read x = s.mem.read x) ∧
    ∀ f, exec i s = .fault f → f.after = { s with latch := f.after.latch }

/-- Input, both modes of its write parameter: where it completes, it changes nothing but pc, the input queue, which loses
its first entry and keeps the rest in order, and the one cell it stores to; where it faults, nothing but the latch. -/
def Obligations.InputFrame : Prop :=
  ∀ (m1 : Mode) (s : State),
    (∀ t, exec (.inp m1) s = .next t →
      t.constructed = s.constructed ∧ t.running = s.running ∧ t.outq = s.outq ∧ t.latch = s.latch ∧
      t.mem.len = s.mem.len ∧ (∃ x, s.inq = x :: t.inq) ∧ storeAddress (.inp m1) s ≠ none ∧
      ∀ d, storeAddress (.inp m1) s = some d → ∀ x, x ≠ d → t.mem.read x = s.mem.read x) ∧
    ∀ f, exec (.inp m1) s = .fault f → f.after = { s with latch := f.after.latch }

/-- Output, both modes: it stores nothing. Where it completes, it changes nothing but pc and the log, which keeps what it
held and gains one entry at its end; where it faults, nothing but the latch. -/
def Obligations.OutputFrame : Prop :=
  ∀ (m1 : Mode) (s : State),
    (∀ t, exec (.out m1) s = .next t →
      t.constructed = s.constructed ∧ t.running = s.running ∧ t.inq = s.inq ∧ t.latch = s.latch ∧ t.mem = s.mem ∧
      (∀ x, t.mem.read x = s.mem.read x) ∧ ∃ x, t.outq = s.outq ++ [x]) ∧
    ∀ f, exec (.out m1) s = .fault f → f.after = { s with latch := f.after.latch }

/-- R121: Halt changes running and pc only: memory, both queues and the latch stay, no fault is raised and pc is not
reset; and what the host then reads is the state that Halt left, whatever it requests short of a Construct. -/
def Obligations.HaltFrame : Prop :=
  ∀ s t : State, exec .halt s = .next t →
    t.constructed = s.constructed ∧ t.inq = s.inq ∧ t.outq = s.outq ∧ t.latch = s.latch ∧ t.mem = s.mem ∧
    t.pc = s.pc + 1 ∧ t.running = false ∧ (∀ x, t.mem.read x = s.mem.read x) ∧
    (s.status = .running → t.status = .halted ∧
      ∀ (c : Config) (tx : Transaction), tx.isConstruct = false → perform c tx t = t)

/-! ## Memory -/

/-- R11 MemWrite, R41, R46: on a canonical memory a write to a valid address is read back, leaves every other cell and the
length alone; an access outside 0..len−1 reads nothing and writes nothing. -/
def Obligations.WriteChangesExactlyOneCell : Prop :=
  ∀ (m : Memory) (a : Int) (v : Int), m.wf →
    (0 ≤ a ∧ a < (m.len : Int) → (m.write a v).read a = some v) ∧
    (∀ x, x ≠ a → (m.write a v).read x = m.read x) ∧
    (m.write a v).len = m.len ∧
    (¬ (0 ≤ a ∧ a < (m.len : Int)) → m.read a = none ∧ m.write a v = m)

/-- Two canonical memories of one length that read alike everywhere are the same data (model's representation, log 4). -/
def Obligations.CanonicalMemoriesAreEqual : Prop :=
  ∀ m m' : Memory, m.wf → m'.wf → m.len = m'.len → (∀ a, m.read a = m'.read a) → m = m'

/-- R21: no Step and no transaction but Construct changes len; an admitted Construct sets it to the program's length. -/
def Obligations.OnlyConstructChangesLen : Prop :=
  (∀ (c : Config) (s t : State), stepAt c s = .next t → t.mem.len = s.mem.len) ∧
  (∀ (c : Config) (s : State) (f : Fault), stepAt c s = .fault f → f.after.mem.len = s.mem.len) ∧
  (∀ (c : Config) (tx : Transaction) (s : State), tx.isConstruct = false → (perform c tx s).mem.len = s.mem.len) ∧
  ∀ (c : Config) (program input : List Word) (s : State), Admitted c program input →
    (perform c (.construct program input) s).mem.len = program.length

/-! ## The flag and the queues -/

/-- R25: running is set to 1 by Construct, cleared by a Step that executes Halt, and written by nothing else; once Halted
the machine stays so until a Construct: Step and Run read the flag and do nothing. Inspect reads it. -/
def Obligations.RunningIsClearedByHaltAlone : Prop :=
  (∀ s t : State, step s = .next t →
    (t.status = .halted ↔ s.mem.read (s.pc : Int) = some 99) ∧
    (s.mem.read (s.pc : Int) ≠ some 99 → t.running = s.running)) ∧
  (∀ (s : State) (f : Fault), step s = .fault f → f.after.running = s.running) ∧
  (∀ (c : Config) (tx : Transaction) (s : State), s.status = .halted → tx.isConstruct = false → perform c tx s = s) ∧
  (∀ (c : Config) (program input : List Word) (s : State), Admitted c program input →
    (perform c (.construct program input) s).running = true) ∧
  ∀ (c : Config) (s : State), s.constructed = true →
    inspect .running s = .ok (if s.running then 1 else 0) ∧ ∀ q : Query, (perform c (.inspect q) s).running = s.running

/-- R30, R31: a Step changes the input queue only by an Input that removes its first entry, and the log only by an Output
that appends one word at its end; a Step that faults changes neither (R112). -/
def Obligations.QueuesChangeOnlyByTheirInstruction : Prop :=
  (∀ s t : State, step s = .next t →
    (t.inq = s.inq ∨ s.mem.read (s.pc : Int) = some 3 ∧ ∃ x, s.inq = x :: t.inq) ∧
    (t.outq = s.outq ∨
      (s.mem.read (s.pc : Int) = some 4 ∨ s.mem.read (s.pc : Int) = some 104) ∧ ∃ x, t.outq = s.outq ++ [x])) ∧
  ∀ (s : State) (f : Fault), step s = .fault f → f.after.inq = s.inq ∧ f.after.outq = s.outq

/-- R31: no instruction reads the log. Two machines that differ only in what their logs hold take the same Step and append
the same words, or raise the same fault, or are turned away alike. -/
def Obligations.OutputLogIsNeverRead : Prop :=
  ∀ (s : State) (o : List Word),
    (∀ t, step s = .next t → ∃ e, t.outq = s.outq ++ e ∧ step { s with outq := o } = .next { t with outq := o ++ e }) ∧
    (∀ f, step s = .fault f →
      ∃ r g, FaultsWith s r f ∧ step { s with outq := o } = .fault g ∧ FaultsWith { s with outq := o } r g) ∧
    ∀ why, step s = .refused why → step { s with outq := o } = .refused why

/-- R112 (derived): over any number of Steps the input queue is what is left after one entry for each completed Input, the
log has grown by one entry for each completed Output, and what it held comes first. -/
def Obligations.QueuesCountTheirInstructions : Prop :=
  ∀ (n : Nat) (s : State),
    countSteps [3] n s ≤ s.inq.length ∧
    (runFuel step n s).inq = s.inq.drop (countSteps [3] n s) ∧
    (runFuel step n s).outq.length = s.outq.length + countSteps [4, 104] n s ∧
    s.outq <+: (runFuel step n s).outq

/-! ## Reset and the host's transactions -/

/-- R183 and R181: an admitted Construct leaves the status Running with running = 1, len the length of the program, every
cell the program's word at its index, and no cell beyond. -/
def Obligations.ConstructLoadsTheProgram : Prop :=
  ∀ (c : Config) (program input : List Word), Admitted c program input →
    ∃ t, construct c program input = .next t ∧ t.status = .running ∧ t.running = true ∧
      t.mem.len = program.length ∧
      (∀ (k : Nat) (h : k < program.length), t.mem.read (k : Int) = some program[k]) ∧
      ∀ a : Int, a < 0 ∨ (program.length : Int) ≤ a → t.mem.read a = none

/-- R182, R184, R185 (decisions D13 and D10): after an admitted Construct pc is 0, the input queue is the input in order,
the log is empty and the latch is clear; State.reset is that state for no program and no input (log 5). -/
def Obligations.ConstructResetsTheRest : Prop :=
  (∀ (c : Config) (program input : List Word) (s : State), Admitted c program input →
    ∃ t, perform c (.construct program input) s = t ∧ t.pc = 0 ∧ t.inq = input ∧ t.outq = [] ∧
      t.latch = ⟨.none, 0, 0, 0⟩ ∧ t.constructed = true) ∧
  construct Config.spec [] [] = .next State.reset

/-- R131 (decisions D15 and D16): a Construct is admitted when every value is a word and the lengths fit the capacities,
under every setting of the parameters (without capacities and with W = 64 under the spec's), the empty program included;
one that is not admitted is refused and changes nothing. -/
def Obligations.ConstructIsAdmittedOrRefused : Prop :=
  (∀ (c : Config) (program input : List Word),
    Admitted c program input ↔
      (∀ v ∈ program ++ input, -(2 ^ (c.wordBits - 1) : Int) ≤ v ∧ v ≤ (2 ^ (c.wordBits - 1) : Int) - 1) ∧
      (∀ k, c.memCap = some k → program.length ≤ k) ∧ ∀ k, c.inCap = some k → input.length ≤ k) ∧
  (∀ program input : List Word,
    Admitted Config.spec program input ↔
      ∀ v ∈ program ++ input, (-9223372036854775808 : Int) ≤ v ∧ v ≤ 9223372036854775807) ∧
  (∀ c : Config, Admitted c [] []) ∧
  ∀ (c : Config) (program input : List Word) (s : State), ¬ Admitted c program input →
    construct c program input = .refused .constructNotAdmitted ∧ perform c (.construct program input) s = s

/-- R163: after a fault no Step is enabled, and the latch is sticky: no sequence of transactions without a Construct
changes a Faulted machine, an admitted Construct clears the latch, and every item that exists can still be read. -/
def Obligations.FaultedUntilConstruct : Prop :=
  ∀ (c : Config) (s : State), s.status = .faulted →
    (∀ t, stepAt c s ≠ .next t) ∧ (∀ f, stepAt c s ≠ .fault f) ∧
    (∀ txs : List Transaction, (∀ tx ∈ txs, tx.isConstruct = false) → performAll c txs s = s) ∧
    (∀ program input : List Word, Admitted c program input →
      (perform c (.construct program input) s).latch = FaultLatch.clear ∧
      (perform c (.construct program input) s).status = .running) ∧
    (∀ (a v : Int), s.mem.read a = some v → inspect (.cell a) s = .ok v) ∧
    (∀ (k : Nat) (h : k < s.outq.length), inspect (.outEntry k) s = .ok s.outq[k]) ∧
    ∀ q : Query, (∃ v, inspect q s = .ok v) ∨ (∃ a : Int, q = .cell a ∧ s.mem.read a = none) ∨
      ∃ k : Int, q = .outEntry k ∧ (k < 0 ∨ (s.outq.length : Int) ≤ k)

/-- R180 (decision D14): before the first Construct, whatever the state holds, no Step, Run or Inspect has an effect, each
is refused, and an admitted Construct is the one way on. -/
def Obligations.UnconstructedAllowsOnlyConstruct : Prop :=
  ∀ (c : Config) (s : State), s.status = .unconstructed →
    (∀ tx : Transaction, tx.isConstruct = false → perform c tx s = s ∧ ∃ r, answerTo c tx s = .error r) ∧
    ∀ program input : List Word, Admitted c program input →
      (perform c (.construct program input) s).status = .running

/-- R137 (decision D18): after a Construct the host reads len, any valid cell, the log, pc, running and the latch, and an
address that is not valid is refused; reading changes nothing. -/
def Obligations.InspectReadsTheState : Prop :=
  ∀ (c : Config) (s : State), s.constructed = true →
    inspect .len s = .ok s.mem.len ∧ inspect .pc s = .ok s.pc ∧
    inspect .running s = .ok (if s.running then 1 else 0) ∧
    inspect .outLen s = .ok s.outq.length ∧
    (∀ (k : Nat) (h : k < s.outq.length), inspect (.outEntry k) s = .ok s.outq[k]) ∧
    (∀ (a : Int) (v : Int), s.mem.read a = some v → inspect (.cell a) s = .ok v) ∧
    (∀ a : Int, a < 0 ∨ (s.mem.len : Int) ≤ a → inspect (.cell a) s = .error .inspectInvalidIndex) ∧
    inspect .faultCause s = .ok s.latch.cause.code ∧ inspect .faultSub s = .ok s.latch.sub ∧
    inspect .faultPc s = .ok s.latch.pc ∧ inspect .faultInfo s = .ok s.latch.info ∧
    ∀ q : Query, perform c (.inspect q) s = s

/-! ## Invariants -/

/-- The invariant holds of the machine right after reset. -/
def Obligations.ResetMeetsTheInvariant : Prop := State.reset.Inv Config.spec ∧ State.reset.status = .running

/-- The invariant holds after every admitted Construct. -/
def Obligations.ConstructMeetsTheInvariant : Prop :=
  ∀ (c : Config) (program input : List Word), Admitted c program input → (constructedState program input).Inv c

/-- Every Step keeps the invariant, whatever the parameters, in the next state or in the state a fault leaves: memory
stays canonical and every cell, queue entry and log entry a word (R4, R45), pc ≤ len (R24), the log at most half as long as
pc (R122 c), and the latch one of the spec's records with fault_pc = pc (R27, R28). -/
def Obligations.StepKeepsTheInvariant : Prop :=
  (∀ (c : Config) (s t : State), s.Inv c → stepAt c s = .next t → t.Inv c) ∧
  (∀ (c : Config) (s : State) (f : Fault), s.Inv c → stepAt c s = .fault f → f.after.Inv c) ∧
  (∀ s t : State, s.Inv Config.spec → step s = .next t → t.Inv Config.spec) ∧
  ∀ (s : State) (f : Fault), s.Inv Config.spec → step s = .fault f → f.after.Inv Config.spec

/-- From any power-on state at all (nothing is known of an Unconstructed machine, R180), every sequence of host
transactions leaves a machine that is still Unconstructed or meets the invariant. -/
def Obligations.EverySessionKeepsTheInvariant : Prop :=
  ∀ (c : Config) (txs : List Transaction) (s : State), s.constructed = false →
    (performAll c txs s).InvIfConstructed c

/-! ## Runs -/

/-- R134: Run is exactly a sequence of Steps: it does nothing outside status Running, and in status Running it is one Step
and then Run from the state that Step leaves; a Step that faults ends it. -/
def Obligations.RunIsSteps : Prop :=
  (∀ s : State, s.status ≠ .running → run s = s) ∧
  (∀ s t : State, step s = .next t → run s = run t) ∧
  ∀ (s : State) (f : Fault), step s = .fault f → run s = f.after

/-- R122 and R135 (derived): from every state in status Running, under every setting of the parameters, a Run ends Halted
or Faulted within ⌊len/2⌋ + 1 Steps, each taken in status Running; and no bound larger than that changes its result. -/
def Obligations.EveryRunEnds : Prop :=
  ∀ (c : Config) (s : State), s.status = .running →
    (runAt c s).Ended ∧
    (∃ n, n ≤ s.mem.len / 2 + 1 ∧ runAt c s = (stepTransaction (stepAt c))^[n] s ∧
      ∀ k < n, ((stepTransaction (stepAt c))^[k] s).status = .running) ∧
    ∀ fuel, s.mem.len / 2 + 1 ≤ fuel → runFuel (stepAt c) fuel s = runAt c s

/-- R122 (derived): pc is strictly increasing over completed Steps, by at least 2 for every instruction other than Halt. -/
def Obligations.PcStrictlyIncreases : Prop :=
  ∀ (c : Config) (s t : State), stepAt c s = .next t →
    s.pc < t.pc ∧ t.pc ≤ t.mem.len ∧ (t.running = true → s.pc + 2 ≤ t.pc)

/-- D1, D2 and D6 of 92_eei_decisions.md: under the `fault` policies a Halted result is the result on every machine: with
any wider word, any overflow policy and either policy for high digits. -/
def Obligations.HaltedResultHoldsForEveryPolicy : Prop :=
  ∀ (c c' : Config) (s : State), c.overflowPolicy = .fault → c.highDigitPolicy = .fault → c.wordBits ≤ c'.wordBits →
    (runAt c s).Final → runAt c' s = runAt c s

/-- Input that a Halted run left unread does not matter (42_io.md R110 corner case 5, R112): with more input behind it, the
run ends in the same state with the extra entries still queued. -/
def Obligations.UnreadInputDoesNotMatter : Prop :=
  ∀ (s : State) (extra : List Word), (run s).Final →
    run { s with inq := s.inq ++ extra } = { run s with inq := (run s).inq ++ extra }
end

