-- ==== Sys2Proof/Laws/Decode.lean ====
section
/-!
SUPPORT. The small lemmas of the decoder's parts: what the catalog gives for each opcode, and what the tests of a row
say of the digits.
-/

namespace Sys2Proof

@[simp] theorem width_add (m1 m2 m3 : Mode) : (Instr.add m1 m2 m3).width = 4 := rfl
@[simp] theorem width_mul (m1 m2 m3 : Mode) : (Instr.mul m1 m2 m3).width = 4 := rfl
@[simp] theorem width_inp (m1 : Mode) : (Instr.inp m1).width = 2 := rfl
@[simp] theorem width_out (m1 : Mode) : (Instr.out m1).width = 2 := rfl
@[simp] theorem width_halt : Instr.halt.width = 1 := rfl

theorem digit_lt (k v : Nat) : digit k v < 10 := Nat.mod_lt _ (by decide)

theorem opcodeOf_lt (v : Nat) : opcodeOf v < 100 := Nat.mod_lt _ (by decide)

/-- A row of the catalog has the opcode of its operation. -/
theorem catalog_eq_some {n : Nat} {row : CatalogRow} (h : catalog n = some row) : n = row.op.opcode := by
  unfold catalog at h
  split at h <;> first | (cases h; rfl) | cases h

/-- The cells of an operation: its word and one for each parameter (30_encoding.md R60). -/
theorem catalog_width {n : Nat} {row : CatalogRow} (h : catalog n = some row) : row.op.width = row.kinds.length + 1 := by
  unfold catalog at h
  split at h <;> first | (cases h; rfl) | cases h

/-- What a decoded word has passed: it is not negative, its opcode is in the catalog, and no test of the row holds. -/
theorem decodeWith_eq_ok {p : HighDigitPolicy} {v : Word} {i : Instr} :
    decodeWith p v = .ok i ↔
      0 ≤ v ∧ ∃ row, catalog (opcodeOf v.toNat) = some row ∧ row.hasInvalidMode v.toNat = false ∧
        ¬(p = .fault ∧ row.highDigits v.toNat ≠ 0) ∧ row.hasImmediateWrite v.toNat = false ∧
        i = row.op.instr fun k => modeOfDigit (digit (k + 1) v.toNat) := by
  unfold decodeWith
  by_cases hv : v < 0
  · simp [hv, Int.not_le.2 hv]
  · rw [if_neg hv]
    cases hc : catalog (opcodeOf v.toNat) with
    | none => simp
    | some row =>
      by_cases h1 : row.hasInvalidMode v.toNat = true
      · simp [h1]
      · by_cases h2 : p = .fault ∧ row.highDigits v.toNat ≠ 0
        · simp [h1, h2]
        · by_cases h3 : row.hasImmediateWrite v.toNat = true
          · simp [h1, h2, h3]
          · have h4 : p = .fault → row.highDigits v.toNat = 0 := by simpa using h2
            simp only [h1, Bool.false_eq_true, if_false, h2, h3, Except.ok.injEq]
            have h1' : row.hasInvalidMode v.toNat = false := by simpa using h1
            have h3' : row.hasImmediateWrite v.toNat = false := by simpa using h3
            constructor
            · rintro rfl
              exact ⟨Int.not_lt.1 hv, row, rfl, h1', h2, h3', rfl⟩
            · rintro ⟨-, row', ⟨⟩, -, -, -, rfl⟩
              rfl

/-- DECODE gives only instructions of a catalog row, with the operation of the word's opcode. -/
theorem decodeWith_opcode {p : HighDigitPolicy} {v : Word} {i : Instr} (h : decodeWith p v = .ok i) :
    0 ≤ v ∧ opcodeOf v.toNat = i.op.opcode := by
  obtain ⟨h0, row, hc, -, -, -, rfl⟩ := decodeWith_eq_ok.1 h
  refine ⟨h0, ?_⟩
  rw [catalog_eq_some hc]
  cases row.op <;> rfl

end Sys2Proof
end

