-- ==== Sys2Proof/Laws/Memory.lean ====
section
/-!
SUPPORT. Memory: the canonical form is kept by every operation, what a list of cells holds after a change, and the small
lemmas of `read` and `write`.
-/

namespace Sys2Proof.Machine

/-! ## Lists of cells -/

theorem getCell_eq_blank {cs : List (Nat × Word)} {a : Nat} (h : ∀ x ∈ cs, x.1 ≠ a) : getCell cs a = blankWord := by
  induction cs with
  | nil => rfl
  | cons c cs ih =>
    obtain ⟨b, w⟩ := c
    have hb : a ≠ b := fun e => h (b, w) (by simp) e.symm
    simp only [getCell, if_neg hb]
    exact ih fun x hx => h x (by simp [hx])

theorem getCell_setCell_ne (cs : List (Nat × Word)) {a x : Nat} (v : Word) (h : x ≠ a) :
    getCell (setCell cs a v) x = getCell cs x := by
  induction cs with
  | nil => by_cases hv : v = blankWord <;> simp [setCell, getCell, hv, h]
  | cons c cs ih =>
    obtain ⟨b, w⟩ := c
    simp only [setCell]
    split
    · split <;> simp [getCell, h]
    · split
      · subst b
        split <;> simp [getCell, h]
      · simp only [getCell, ih]

theorem getCell_setCell_same {cs : List (Nat × Word)} (a : Nat) (v : Word)
    (hs : cs.Pairwise fun x y => x.1 < y.1) : getCell (setCell cs a v) a = v := by
  induction cs with
  | nil => by_cases hv : v = blankWord <;> simp [setCell, getCell, hv]
  | cons c cs ih =>
    obtain ⟨b, w⟩ := c
    rw [List.pairwise_cons] at hs
    have above : ∀ x ∈ cs, b < x.1 := fun x hx => hs.1 x hx
    simp only [setCell]
    split
    · rename_i hab
      split
      · rename_i hv
        have : getCell ((b, w) :: cs) a = blankWord :=
          getCell_eq_blank fun x hx => by
            rcases List.mem_cons.1 hx with rfl | hx
            · exact (Nat.ne_of_lt hab).symm
            · have := above x hx; omega
        rw [this, hv]
      · simp [getCell]
    · split
      · rename_i hab
        split
        · rename_i hv
          rw [getCell_eq_blank fun x hx => ?_, hv]
          have := above x hx; omega
        · simp [getCell]
      · rename_i hab
        simp only [getCell, if_neg hab]
        exact ih hs.2

/-- What a changed list of cells can list: the new cell, or a cell it listed before at another address. -/
theorem mem_setCell {cs : List (Nat × Word)} {a : Nat} {v : Word} {x : Nat × Word} (h : x ∈ setCell cs a v) :
    (x = (a, v) ∧ v ≠ blankWord) ∨ x ∈ cs := by
  induction cs with
  | nil => by_cases hv : v = blankWord <;> simp_all [setCell]
  | cons c cs ih =>
    obtain ⟨b, w⟩ := c
    simp only [setCell] at h
    split at h
    · split at h
      · exact .inr h
      · rcases List.mem_cons.1 h with h | h
        · exact .inl ⟨h, ‹_›⟩
        · exact .inr h
    · split at h
      · split at h
        · exact .inr (by simp [h])
        · rcases List.mem_cons.1 h with h | h
          · exact .inl ⟨h, ‹_›⟩
          · exact .inr (by simp [h])
      · rcases List.mem_cons.1 h with h | h
        · exact .inr (by simp [h])
        · rcases ih h with h | h
          · exact .inl h
          · exact .inr (by simp [h])

theorem setCell_sorted {cs : List (Nat × Word)} (a : Nat) (v : Word)
    (hs : cs.Pairwise fun x y => x.1 < y.1) : (setCell cs a v).Pairwise fun x y => x.1 < y.1 := by
  induction cs with
  | nil => by_cases hv : v = blankWord <;> simp [setCell, hv]
  | cons c cs ih =>
    obtain ⟨b, w⟩ := c
    rw [List.pairwise_cons] at hs
    simp only [setCell]
    split
    · rename_i hab
      split
      · exact List.pairwise_cons.2 hs
      · refine List.pairwise_cons.2 ⟨fun x hx => ?_, List.pairwise_cons.2 hs⟩
        rcases List.mem_cons.1 hx with rfl | hx
        · exact hab
        · have := hs.1 x hx; simp only at this ⊢; omega
    · split
      · rename_i hab
        split
        · exact hs.2
        · subst hab
          exact List.pairwise_cons.2 hs
      · rename_i h1 h2
        refine List.pairwise_cons.2 ⟨fun x hx => ?_, ih hs.2⟩
        rcases mem_setCell hx with ⟨rfl, -⟩ | hx
        · simp only; omega
        · exact hs.1 x hx

/-- What a loaded list of cells lists: words of the program that are not blank, at their addresses. -/
theorem mem_cellsFrom {k : Nat} {ws : List Word} {x : Nat × Word} (h : x ∈ cellsFrom k ws) :
    k ≤ x.1 ∧ x.1 < k + ws.length ∧ x.2 ≠ blankWord ∧ x.2 ∈ ws := by
  induction ws generalizing k with
  | nil => simp [cellsFrom] at h
  | cons v ws ih =>
    simp only [cellsFrom] at h
    split at h
    · obtain ⟨h1, h2, h3, h4⟩ := ih h
      exact ⟨by omega, by simp only [List.length_cons]; omega, h3, by simp [h4]⟩
    · rcases List.mem_cons.1 h with rfl | h
      · exact ⟨Nat.le_refl _, by simp, ‹_›, by simp⟩
      · obtain ⟨h1, h2, h3, h4⟩ := ih h
        exact ⟨by omega, by simp only [List.length_cons]; omega, h3, by simp [h4]⟩

theorem cellsFrom_sorted (k : Nat) (ws : List Word) : (cellsFrom k ws).Pairwise fun x y => x.1 < y.1 := by
  induction ws generalizing k with
  | nil => simp [cellsFrom]
  | cons v ws ih =>
    simp only [cellsFrom]
    split
    · exact ih _
    · exact List.pairwise_cons.2 ⟨fun x hx => (mem_cellsFrom hx).1, ih _⟩

theorem getCell_cellsFrom (k : Nat) (ws : List Word) (j : Nat) (h : j < ws.length) :
    getCell (cellsFrom k ws) (k + j) = ws[j] := by
  induction ws generalizing k j with
  | nil => simp at h
  | cons v ws ih =>
    cases j with
    | zero =>
      by_cases hv : v = blankWord
      · simp only [cellsFrom, if_pos hv]
        rw [getCell_eq_blank fun x hx => ?_]
        · simp [hv]
        · have := (mem_cellsFrom hx).1; omega
      · simp [cellsFrom, hv, getCell]
    | succ j =>
      have h' : j < ws.length := by simpa using h
      have e : k + (j + 1) = k + 1 + j := by omega
      by_cases hv : v = blankWord
      · simp only [cellsFrom, if_pos hv]
        rw [e, ih (k + 1) j h']
        simp
      · have hk : k + (j + 1) ≠ k := by omega
        simp only [cellsFrom, if_neg hv, getCell, if_neg hk]
        rw [e, ih (k + 1) j h']
        simp

/-! ## Memory -/

@[simp] theorem write_len (m : Memory) (a : Int) (v : Word) : (m.write a v).len = m.len := by
  unfold Memory.write; split <;> rfl

theorem read_eq_some {m : Memory} {a : Int} {v : Word} :
    m.read a = some v ↔ m.InRange a ∧ getCell m.cells a.toNat = v := by
  unfold Memory.read
  split
  · rename_i h; exact ⟨fun e => ⟨h, Option.some.inj e⟩, fun e => congrArg some e.2⟩
  · rename_i h; exact ⟨fun e => (nomatch e), fun e => absurd e.1 h⟩

theorem read_eq_none {m : Memory} {a : Int} : m.read a = none ↔ ¬ m.InRange a := by
  unfold Memory.read
  split
  · rename_i h; exact ⟨fun e => (nomatch e), fun e => absurd h e⟩
  · rename_i h; exact ⟨fun _ => h, fun _ => rfl⟩

theorem inRange_of_read {m : Memory} {a : Int} {v : Word} (h : m.read a = some v) : m.InRange a := (read_eq_some.1 h).1

theorem read_isSome_of_inRange {m : Memory} {a : Int} (h : m.InRange a) : ∃ v, m.read a = some v :=
  ⟨_, read_eq_some.2 ⟨h, rfl⟩⟩

/-- A write keeps the canonical form. -/
theorem write_wf {m : Memory} (a : Int) (v : Word) (h : m.wf) : (m.write a v).wf := by
  unfold Memory.write
  split
  · rename_i hr
    refine ⟨setCell_sorted _ _ h.1, fun x hx => ?_⟩
    rcases mem_setCell hx with ⟨rfl, hv⟩ | hx
    · exact ⟨by have := hr.1; have := hr.2; simp only; omega, hv⟩
    · exact h.2 x hx
  · exact h

/-- Every cell a written memory lists holds the word written or a word listed before. -/
theorem mem_write {m : Memory} {a : Int} {v : Word} {x : Nat × Word} (h : x ∈ (m.write a v).cells) :
    x.2 = v ∨ x ∈ m.cells := by
  unfold Memory.write at h
  split at h
  · rcases mem_setCell h with ⟨rfl, -⟩ | h
    · exact .inl rfl
    · exact .inr h
  · exact .inr h

/-- A loaded memory is canonical. -/
theorem load_wf (program : List Word) : (Memory.load program).wf :=
  ⟨cellsFrom_sorted _ _, fun x hx => by
    obtain ⟨-, h2, h3, -⟩ := mem_cellsFrom hx
    exact ⟨by simpa [Memory.load] using h2, h3⟩⟩

/-- The memory of State.reset is canonical. -/
theorem reset_mem_wf : State.reset.mem.wf := by decide

theorem setCells_wf {m : Memory} {k : Nat} {ws : List Word} (h : m.wf) (hlen : k + ws.length ≤ m.len) :
    (Memory.mk m.len (setCells m.cells k ws)).wf := by
  induction ws generalizing m k with
  | nil => exact h
  | cons v ws ih =>
    have hk : k < m.len := by simp only [List.length_cons] at hlen; omega
    have h' : (Memory.mk m.len (setCell m.cells k v)).wf := by
      refine ⟨setCell_sorted _ _ h.1, fun x hx => ?_⟩
      rcases mem_setCell hx with ⟨rfl, hv⟩ | hx
      · exact ⟨hk, hv⟩
      · exact h.2 x hx
    exact ih (m := Memory.mk m.len (setCell m.cells k v)) h' (by simp only [List.length_cons] at hlen ⊢; omega)

/-- A memory with words placed in it is canonical. -/
theorem place_wf {m : Memory} (k : Nat) (ws : List Word) (h : m.wf) : (m.place k ws).wf := by
  have h' : (Memory.mk (max m.len (k + ws.length)) m.cells).wf :=
    ⟨h.1, fun x hx => ⟨Nat.lt_of_lt_of_le (h.2 x hx).1 (Nat.le_max_left _ _), (h.2 x hx).2⟩⟩
  exact setCells_wf h' (Nat.le_max_right _ _)

end Sys2Proof.Machine
end

