-- ==== Sys2Proof/Laws/Operands.lean ====
section
/-!
SUPPORT. RESOLVE: one lemma per operand form that says when it gives a value and which, and when it gives which fault.
-/

namespace Sys2Proof.Machine

theorem rawParam_eq_ok {i : Nat} {s : State} {r : Word} :
    rawParam i s = .ok r ↔ s.mem.read (slotAddress i s) = some r := by
  unfold rawParam; split <;> simp_all

theorem rawParam_eq_error {i : Nat} {s : State} {e : FaultReason} :
    rawParam i s = .error e ↔ ¬ s.mem.InRange (slotAddress i s) ∧ e = .slotOob (slotAddress i s) := by
  unfold rawParam
  split
  · rename_i h; exact ⟨fun e => (nomatch e), fun e => absurd (inRange_of_read h) e.1⟩
  · rename_i h; exact ⟨fun | rfl => ⟨read_eq_none.1 h, rfl⟩, fun e => by rw [e.2]⟩

theorem readParam_eq_ok {m : Mode} {i : Nat} {s : State} {v : Word} :
    readParam m i s = .ok v ↔ s.Operand m i v := by
  unfold readParam State.Operand
  cases h : rawParam i s with
  | error e =>
    have := (rawParam_eq_error.1 h).1
    simp [read_eq_none.2 this]
  | ok r =>
    rw [rawParam_eq_ok] at h
    cases m with
    | immediate => simp [h, eq_comm (a := v)]
    | position => cases h' : s.mem.read r <;> simp [h, h']

/-- Read resolution faults with SLOT_OOB or, in Position mode, with OPERAND_OOB (R84, R85). -/
theorem readParam_eq_error {m : Mode} {i : Nat} {s : State} {e : FaultReason} (h : readParam m i s = .error e) :
    (¬ s.mem.InRange (slotAddress i s) ∧ e = .slotOob (slotAddress i s)) ∨
      ∃ r, m = .position ∧ s.mem.read (slotAddress i s) = some r ∧ ¬ s.mem.InRange r ∧ e = .operandOob r := by
  unfold readParam at h
  split at h
  · rename_i e' he
    cases h
    exact .inl (rawParam_eq_error.1 he)
  · rename_i r hr
    cases m with
    | immediate => cases h
    | position =>
      simp only at h
      split at h
      · cases h
      · rename_i hn
        cases h
        exact .inr ⟨r, rfl, rawParam_eq_ok.1 hr, read_eq_none.1 hn, rfl⟩

theorem writeParam_eq_ok {i : Nat} {s : State} {d : Int} : writeParam i s = .ok d ↔ s.Target i d := by
  unfold writeParam State.Target
  cases h : rawParam i s with
  | error e =>
    have := (rawParam_eq_error.1 h).1
    simp [read_eq_none.2 this]
  | ok r =>
    rw [rawParam_eq_ok] at h
    simp only [h, Option.some.injEq]
    split
    · rename_i hr; constructor
      · rintro ⟨⟩; exact ⟨rfl, hr.1, hr.2⟩
      · rintro ⟨rfl, -⟩; rfl
    · rename_i hr; constructor
      · rintro ⟨⟩
      · rintro ⟨rfl, h1, h2⟩; exact absurd ⟨h1, h2⟩ hr

/-- Write resolution faults with SLOT_OOB or TARGET_OOB (R84, R87). -/
theorem writeParam_eq_error {i : Nat} {s : State} {e : FaultReason} (h : writeParam i s = .error e) :
    (¬ s.mem.InRange (slotAddress i s) ∧ e = .slotOob (slotAddress i s)) ∨
      ∃ r, s.mem.read (slotAddress i s) = some r ∧ ¬ s.mem.InRange r ∧ e = .targetOob r := by
  unfold writeParam at h
  split at h
  · rename_i e' he
    cases h
    exact .inl (rawParam_eq_error.1 he)
  · rename_i r hr
    split at h
    · cases h
    · rename_i hn
      cases h
      exact .inr ⟨r, rawParam_eq_ok.1 hr, hn, rfl⟩

theorem target_inRange {s : State} {i : Nat} {d : Int} (h : s.Target i d) : s.mem.InRange d := h.2

/-- A resolved parameter's slot lies below len (10_state.md R24). -/
theorem operand_slot_lt {s : State} {m : Mode} {i : Nat} {v : Word} (h : s.Operand m i v) : s.pc + i < s.mem.len := by
  obtain ⟨r, hr, -⟩ := h
  have := (inRange_of_read hr).2
  unfold slotAddress at this
  omega

theorem target_slot_lt {s : State} {i : Nat} {d : Int} (h : s.Target i d) : s.pc + i < s.mem.len := by
  have := (inRange_of_read h.1).2
  unfold slotAddress at this
  omega

/-- Format F3 gives its operands and destination exactly when the write mode is Position and all three resolve. -/
theorem resolveF3_eq_ok {m1 m2 m3 : Mode} {w : Word} {s : State} {a b : Word} {d : Int} :
    resolveF3 m1 m2 m3 w s = .ok (a, b, d) ↔
      m3 = .position ∧ s.Operand m1 1 a ∧ s.Operand m2 2 b ∧ s.Target 3 d := by
  rw [← readParam_eq_ok, ← readParam_eq_ok, ← writeParam_eq_ok]
  unfold resolveF3
  cases m3 <;> cases readParam m1 1 s <;> cases readParam m2 2 s <;> cases writeParam 3 s <;>
    simp [writeMode]

theorem resolveF1W_eq_ok {m1 : Mode} {w : Word} {s : State} {d : Int} :
    resolveF1W m1 w s = .ok d ↔ m1 = .position ∧ s.Target 1 d := by
  rw [← writeParam_eq_ok]
  unfold resolveF1W
  cases m1 <;> simp [writeMode]

theorem resolveF1R_eq_ok {m1 : Mode} {s : State} {a : Word} : resolveF1R m1 s = .ok a ↔ s.Operand m1 1 a :=
  readParam_eq_ok

end Sys2Proof.Machine
end

