-- ==== Sys2Proof/Laws/State.lean ====
section
/-!
SUPPORT. What each update of the state does to each field: one lemma per field per update, so that no proof unfolds a
record update.
-/

namespace Sys2Proof.Machine

@[simp] theorem writeCell_constructed (s : State) (a : Int) (v : Word) : (s.writeCell a v).constructed = s.constructed := rfl
@[simp] theorem writeCell_mem (s : State) (a : Int) (v : Word) : (s.writeCell a v).mem = s.mem.write a v := rfl
@[simp] theorem writeCell_pc (s : State) (a : Int) (v : Word) : (s.writeCell a v).pc = s.pc := rfl
@[simp] theorem writeCell_running (s : State) (a : Int) (v : Word) : (s.writeCell a v).running = s.running := rfl
@[simp] theorem writeCell_inq (s : State) (a : Int) (v : Word) : (s.writeCell a v).inq = s.inq := rfl
@[simp] theorem writeCell_outq (s : State) (a : Int) (v : Word) : (s.writeCell a v).outq = s.outq := rfl
@[simp] theorem writeCell_latch (s : State) (a : Int) (v : Word) : (s.writeCell a v).latch = s.latch := rfl

@[simp] theorem advance_constructed (s : State) (w : Nat) : (s.advance w).constructed = s.constructed := rfl
@[simp] theorem advance_mem (s : State) (w : Nat) : (s.advance w).mem = s.mem := rfl
@[simp] theorem advance_pc (s : State) (w : Nat) : (s.advance w).pc = s.pc + w := rfl
@[simp] theorem advance_running (s : State) (w : Nat) : (s.advance w).running = s.running := rfl
@[simp] theorem advance_inq (s : State) (w : Nat) : (s.advance w).inq = s.inq := rfl
@[simp] theorem advance_outq (s : State) (w : Nat) : (s.advance w).outq = s.outq := rfl
@[simp] theorem advance_latch (s : State) (w : Nat) : (s.advance w).latch = s.latch := rfl

@[simp] theorem popInput_constructed (s : State) : (s.popInput).constructed = s.constructed := rfl
@[simp] theorem popInput_mem (s : State) : (s.popInput).mem = s.mem := rfl
@[simp] theorem popInput_pc (s : State) : (s.popInput).pc = s.pc := rfl
@[simp] theorem popInput_running (s : State) : (s.popInput).running = s.running := rfl
@[simp] theorem popInput_inq (s : State) : (s.popInput).inq = s.inq.tail := rfl
@[simp] theorem popInput_outq (s : State) : (s.popInput).outq = s.outq := rfl
@[simp] theorem popInput_latch (s : State) : (s.popInput).latch = s.latch := rfl

@[simp] theorem appendOutput_constructed (s : State) (v : Word) : (s.appendOutput v).constructed = s.constructed := rfl
@[simp] theorem appendOutput_mem (s : State) (v : Word) : (s.appendOutput v).mem = s.mem := rfl
@[simp] theorem appendOutput_pc (s : State) (v : Word) : (s.appendOutput v).pc = s.pc := rfl
@[simp] theorem appendOutput_running (s : State) (v : Word) : (s.appendOutput v).running = s.running := rfl
@[simp] theorem appendOutput_inq (s : State) (v : Word) : (s.appendOutput v).inq = s.inq := rfl
@[simp] theorem appendOutput_outq (s : State) (v : Word) : (s.appendOutput v).outq = s.outq ++ [v] := rfl
@[simp] theorem appendOutput_latch (s : State) (v : Word) : (s.appendOutput v).latch = s.latch := rfl

@[simp] theorem clearRunning_constructed (s : State) : (s.clearRunning).constructed = s.constructed := rfl
@[simp] theorem clearRunning_mem (s : State) : (s.clearRunning).mem = s.mem := rfl
@[simp] theorem clearRunning_pc (s : State) : (s.clearRunning).pc = s.pc := rfl
@[simp] theorem clearRunning_running (s : State) : (s.clearRunning).running = false := rfl
@[simp] theorem clearRunning_inq (s : State) : (s.clearRunning).inq = s.inq := rfl
@[simp] theorem clearRunning_outq (s : State) : (s.clearRunning).outq = s.outq := rfl
@[simp] theorem clearRunning_latch (s : State) : (s.clearRunning).latch = s.latch := rfl

@[simp] theorem raise_constructed (s : State) (r : FaultReason) : (s.raise r).constructed = s.constructed := rfl
@[simp] theorem raise_mem (s : State) (r : FaultReason) : (s.raise r).mem = s.mem := rfl
@[simp] theorem raise_pc (s : State) (r : FaultReason) : (s.raise r).pc = s.pc := rfl
@[simp] theorem raise_running (s : State) (r : FaultReason) : (s.raise r).running = s.running := rfl
@[simp] theorem raise_inq (s : State) (r : FaultReason) : (s.raise r).inq = s.inq := rfl
@[simp] theorem raise_outq (s : State) (r : FaultReason) : (s.raise r).outq = s.outq := rfl
@[simp] theorem raise_latch (s : State) (r : FaultReason) : (s.raise r).latch = ⟨r.cause, r.sub, s.pc, r.info⟩ := rfl

@[simp] theorem fault_after (r : FaultReason) (t : State) : (r.fault t).after = t := by cases r <;> rfl

end Sys2Proof.Machine
end

