-- ==== Sys2Proof/Laws/Exec.lean ====
section
/-!
SUPPORT. What each meaning can answer, said once: one of the cases named, guards included, is its answer. And what the
overflow policy gives.
-/

namespace Sys2Proof.Machine

/-! ## The overflow policy -/

theorem wordMin_le_wordMax (W : Nat) : wordMin W ≤ wordMax W := by
  have : (0 : Int) < 2 ^ (W - 1) := by positivity
  unfold wordMin wordMax; omega

theorem wrapTo_isWord (W : Nat) (t : Int) : IsWord W (wrapTo W t) := by
  have hp : (0 : Int) < 2 ^ W := by positivity
  have h0 := Int.emod_nonneg (t - wordMin W) (ne_of_gt hp)
  have h1 := Int.emod_lt_of_pos (t - wordMin W) hp
  refine ⟨by unfold wrapTo; omega, ?_⟩
  have : wordMin W + (2 ^ W - 1) ≤ wordMax W := by
    unfold wordMin wordMax
    cases W with
    | zero => simp
    | succ n => simp only [Nat.add_sub_cancel, pow_succ]; omega
  unfold wrapTo; omega

theorem saturateTo_isWord (W : Nat) (t : Int) : IsWord W (saturateTo W t) := by
  have := wordMin_le_wordMax W
  unfold saturateTo
  split
  · exact ⟨this, le_refl _⟩
  · exact ⟨le_refl _, this⟩

/-- Whatever the policy, what Add and Multiply write is a word (41_arithmetic.md R103, 20_memory.md R45). -/
theorem overflowAt_isWord {c : Config} {t : Int} {res : Word} (h : overflowAt c t = some res) :
    IsWord c.wordBits res := by
  unfold overflowAt at h
  split at h
  · cases h; assumption
  · split at h <;> cases h
    · exact wrapTo_isWord _ _
    · exact saturateTo_isWord _ _

/-! ## Taking a fault -/

theorem takeFault_ne_next (r : FaultReason) (s t : State) : takeFault r s ≠ .next t := nofun

theorem takeFault_ne_refused (r : FaultReason) (s : State) (w : Refusal) : takeFault r s ≠ .refused w := nofun

@[simp] theorem stateAfter_takeFault (r : FaultReason) (s : State) : stateAfter (takeFault r s) = some (s.raise r) := by
  simp [stateAfter, takeFault]

/-- The fault taken for `r` is the diagnostic of `r`, and nothing but the latch changes (60_exceptions.md R161, R162). -/
theorem takeFault_eq_fault {r : FaultReason} {s : State} {f : Fault} : takeFault r s = .fault f ↔ FaultsWith s r f :=
  ⟨fun h => by cases h; rfl, fun h => by cases h; rfl⟩

/-! ## The meanings -/

theorem commitArith_cases (c : Config) (x d : Int) (w : Nat) (s : State) :
    (overflowAt c x = none ∧ commitArith c x d w s = takeFault .numericOverflow s) ∨
      ∃ res, overflowAt c x = some res ∧ commitArith c x d w s = .next ((s.writeCell d res).advance w) := by
  unfold commitArith
  cases overflowAt c x with
  | none => exact .inl ⟨rfl, rfl⟩
  | some res => exact .inr ⟨res, rfl, rfl⟩

/-- Add faults in RESOLVE, faults in EXECUTE, or completes. -/
theorem execAddAt_cases (c : Config) (m1 m2 m3 : Mode) (s : State) :
    (∃ r, resolveF3 m1 m2 m3 (encode (.add m1 m2 m3)) s = .error r ∧ execAddAt c m1 m2 m3 s = takeFault r s) ∨
      ∃ a b d, m3 = .position ∧ s.Operand m1 1 a ∧ s.Operand m2 2 b ∧ s.Target 3 d ∧
        ((overflowAt c (a + b) = none ∧ execAddAt c m1 m2 m3 s = takeFault .numericOverflow s) ∨
          ∃ res, overflowAt c (a + b) = some res ∧
            execAddAt c m1 m2 m3 s = .next ((s.writeCell d res).advance 4)) := by
  unfold execAddAt
  cases hr : resolveF3 m1 m2 m3 (encode (.add m1 m2 m3)) s with
  | error r => exact .inl ⟨r, rfl, rfl⟩
  | ok x =>
    obtain ⟨a, b, d⟩ := x
    obtain ⟨h3, h4, h5, h6⟩ := resolveF3_eq_ok.1 hr
    exact .inr ⟨a, b, d, h3, h4, h5, h6, commitArith_cases c (a + b) d 4 s⟩

/-- Multiply faults in RESOLVE, faults in EXECUTE, or completes. -/
theorem execMulAt_cases (c : Config) (m1 m2 m3 : Mode) (s : State) :
    (∃ r, resolveF3 m1 m2 m3 (encode (.mul m1 m2 m3)) s = .error r ∧ execMulAt c m1 m2 m3 s = takeFault r s) ∨
      ∃ a b d, m3 = .position ∧ s.Operand m1 1 a ∧ s.Operand m2 2 b ∧ s.Target 3 d ∧
        ((overflowAt c (a * b) = none ∧ execMulAt c m1 m2 m3 s = takeFault .numericOverflow s) ∨
          ∃ res, overflowAt c (a * b) = some res ∧
            execMulAt c m1 m2 m3 s = .next ((s.writeCell d res).advance 4)) := by
  unfold execMulAt
  cases hr : resolveF3 m1 m2 m3 (encode (.mul m1 m2 m3)) s with
  | error r => exact .inl ⟨r, rfl, rfl⟩
  | ok x =>
    obtain ⟨a, b, d⟩ := x
    obtain ⟨h3, h4, h5, h6⟩ := resolveF3_eq_ok.1 hr
    exact .inr ⟨a, b, d, h3, h4, h5, h6, commitArith_cases c (a * b) d 4 s⟩

/-- Input faults in RESOLVE, is starved, or completes. -/
theorem execInp_cases (m1 : Mode) (s : State) :
    (∃ r, resolveF1W m1 (encode (.inp m1)) s = .error r ∧ execInp m1 s = takeFault r s) ∨
      ∃ d, m1 = .position ∧ s.Target 1 d ∧
        ((s.inq = [] ∧ execInp m1 s = takeFault .inputStarvation s) ∨
          ∃ x rest, s.inq = x :: rest ∧ execInp m1 s = .next ((s.popInput.writeCell d x).advance 2)) := by
  unfold execInp
  cases hr : resolveF1W m1 (encode (.inp m1)) s with
  | error r => exact .inl ⟨r, rfl, rfl⟩
  | ok d =>
    obtain ⟨h1, h2⟩ := resolveF1W_eq_ok.1 hr
    refine .inr ⟨d, h1, h2, ?_⟩
    cases s.inq with
    | nil => exact .inl ⟨rfl, rfl⟩
    | cons x rest => exact .inr ⟨x, rest, rfl, rfl⟩

/-- Output faults in RESOLVE or completes. -/
theorem execOut_cases (m1 : Mode) (s : State) :
    (∃ r, resolveF1R m1 s = .error r ∧ execOut m1 s = takeFault r s) ∨
      ∃ a, s.Operand m1 1 a ∧ execOut m1 s = .next ((s.appendOutput a).advance 2) := by
  unfold execOut
  cases hr : resolveF1R m1 s with
  | error r => exact .inl ⟨r, rfl, rfl⟩
  | ok a => exact .inr ⟨a, resolveF1R_eq_ok.1 hr, rfl⟩

/-- Halt completes. -/
theorem execHalt_eq (s : State) : execHalt s = .next (s.clearRunning.advance 1) := rfl

/-! ## Completed instructions -/

theorem execAddAt_eq_next {c : Config} {m1 m2 m3 : Mode} {s t : State} (h : execAddAt c m1 m2 m3 s = .next t) :
    ∃ a b d res, m3 = .position ∧ s.Operand m1 1 a ∧ s.Operand m2 2 b ∧ s.Target 3 d ∧
      overflowAt c (a + b) = some res ∧ t = (s.writeCell d res).advance 4 := by
  obtain ⟨r, -, e⟩ | ⟨a, b, d, h3, h4, h5, h6, ⟨-, e⟩ | ⟨res, h7, e⟩⟩ := execAddAt_cases c m1 m2 m3 s <;> rw [e] at h
  · exact absurd h (takeFault_ne_next _ _ _)
  · exact absurd h (takeFault_ne_next _ _ _)
  · cases h; exact ⟨a, b, d, res, h3, h4, h5, h6, h7, rfl⟩

theorem execMulAt_eq_next {c : Config} {m1 m2 m3 : Mode} {s t : State} (h : execMulAt c m1 m2 m3 s = .next t) :
    ∃ a b d res, m3 = .position ∧ s.Operand m1 1 a ∧ s.Operand m2 2 b ∧ s.Target 3 d ∧
      overflowAt c (a * b) = some res ∧ t = (s.writeCell d res).advance 4 := by
  obtain ⟨r, -, e⟩ | ⟨a, b, d, h3, h4, h5, h6, ⟨-, e⟩ | ⟨res, h7, e⟩⟩ := execMulAt_cases c m1 m2 m3 s <;> rw [e] at h
  · exact absurd h (takeFault_ne_next _ _ _)
  · exact absurd h (takeFault_ne_next _ _ _)
  · cases h; exact ⟨a, b, d, res, h3, h4, h5, h6, h7, rfl⟩

theorem execInp_eq_next {m1 : Mode} {s t : State} (h : execInp m1 s = .next t) :
    ∃ d x rest, m1 = .position ∧ s.Target 1 d ∧ s.inq = x :: rest ∧ t = (s.popInput.writeCell d x).advance 2 := by
  obtain ⟨r, -, e⟩ | ⟨d, h1, h2, ⟨-, e⟩ | ⟨x, rest, h3, e⟩⟩ := execInp_cases m1 s <;> rw [e] at h
  · exact absurd h (takeFault_ne_next _ _ _)
  · exact absurd h (takeFault_ne_next _ _ _)
  · cases h; exact ⟨d, x, rest, h1, h2, h3, rfl⟩

theorem execOut_eq_next {m1 : Mode} {s t : State} (h : execOut m1 s = .next t) :
    ∃ a, s.Operand m1 1 a ∧ t = (s.appendOutput a).advance 2 := by
  obtain ⟨r, -, e⟩ | ⟨a, h1, e⟩ := execOut_cases m1 s <;> rw [e] at h
  · exact absurd h (takeFault_ne_next _ _ _)
  · cases h; exact ⟨a, h1, rfl⟩

/-- `exec` is `execAt` of the spec's parameters. -/
theorem exec_eq_execAt (i : Instr) (s : State) : exec i s = execAt Config.spec i s := by
  cases i <;> rfl

end Sys2Proof.Machine
end

