-- ==== Sys2Proof/Laws/PerInstr.lean ====
section
/-!
SUPPORT. Facts about every instruction as syntax, one lemma per constructor of `Instr`.

EncodedWordRange: the word of a well-formed instruction has the opcode of its operation and is at most 1102, "the largest
legal instruction word" (00_scope.md R4).
-/

namespace Sys2Proof.Laws

/-- The word of a well-formed instruction lies in 1..1102 and its low two digits are the operation's opcode. -/
def EncodedWordRange.Statement (i : Instr) : Prop :=
  i.wf = true → 1 ≤ encode i ∧ encode i ≤ 1102 ∧ opcodeOf (encode i).toNat = i.op.opcode

theorem EncodedWordRange.add (m1 m2 m3 : Mode) : EncodedWordRange.Statement (.add m1 m2 m3) := by
  cases m1 <;> cases m2 <;> cases m3 <;> unfold EncodedWordRange.Statement <;> decide

theorem EncodedWordRange.mul (m1 m2 m3 : Mode) : EncodedWordRange.Statement (.mul m1 m2 m3) := by
  cases m1 <;> cases m2 <;> cases m3 <;> unfold EncodedWordRange.Statement <;> decide

theorem EncodedWordRange.inp (m1 : Mode) : EncodedWordRange.Statement (.inp m1) := by
  cases m1 <;> unfold EncodedWordRange.Statement <;> decide

theorem EncodedWordRange.out (m1 : Mode) : EncodedWordRange.Statement (.out m1) := by
  cases m1 <;> unfold EncodedWordRange.Statement <;> decide

theorem EncodedWordRange.halt : EncodedWordRange.Statement .halt := by
  unfold EncodedWordRange.Statement; decide

end Sys2Proof.Laws
end

