-- ==== Sys2Proof/Laws/Step.lean ====
section
/-!
SUPPORT. The Step: when it is enabled, what FETCH and DECODE give, what a Step can do, and that the machine of the fixed
names is the parametric machine with the spec's parameters.
-/

namespace Sys2Proof.Machine

/-! ## Status -/

theorem status_eq_running {s : State} :
    s.status = .running ↔ s.constructed = true ∧ s.latch.cause = .none ∧ s.running = true := by
  unfold State.status
  cases s.constructed <;> cases s.latch.cause <;> cases s.running <;> simp

theorem status_eq_halted {s : State} :
    s.status = .halted ↔ s.constructed = true ∧ s.latch.cause = .none ∧ s.running = false := by
  unfold State.status
  cases s.constructed <;> cases s.latch.cause <;> cases s.running <;> simp

theorem status_eq_faulted {s : State} : s.status = .faulted ↔ s.constructed = true ∧ s.latch.cause ≠ .none := by
  unfold State.status
  cases s.constructed <;> cases s.latch.cause <;> cases s.running <;> simp

theorem status_eq_unconstructed {s : State} : s.status = .unconstructed ↔ s.constructed = false := by
  unfold State.status
  cases s.constructed <;> cases s.latch.cause <;> cases s.running <;> simp

/-- A Step is enabled exactly in status Running (44_host_operations.md R132). -/
theorem notEnabled_eq_none {s : State} : s.notEnabled = none ↔ s.status = .running := by
  unfold State.notEnabled
  cases s.status <;> simp

/-- Fault entry makes a constructed machine Faulted (60_exceptions.md R161). -/
theorem raise_status {s : State} (r : FaultReason) (h : s.constructed = true) : (s.raise r).status = .faulted := by
  rw [status_eq_faulted]
  cases r <;> exact ⟨h, nofun⟩

/-! ## FETCH and DECODE -/

theorem fetchWith_eq_ok {p : HighDigitPolicy} {s : State} {i : Instr} :
    fetchWith p s = .ok i ↔ ∃ v, s.mem.read (s.pc : Int) = some v ∧ decodeWith p v = .ok i := by
  unfold fetchWith fetchWord
  cases s.mem.read (s.pc : Int) with
  | none => simp
  | some v => cases h : decodeWith p v <;> simp [h]

theorem fetchWith_eq_error {p : HighDigitPolicy} {s : State} {r : FaultReason} :
    fetchWith p s = .error r ↔
      (s.mem.read (s.pc : Int) = none ∧ r = .fetchOob s.pc) ∨
        ∃ v e, s.mem.read (s.pc : Int) = some v ∧ decodeWith p v = .error e ∧ r = rejectReason e v := by
  unfold fetchWith fetchWord
  cases s.mem.read (s.pc : Int) with
  | none => simp [eq_comm]
  | some v => cases h : decodeWith p v <;> simp [h, eq_comm]

/-! ## The Step -/

theorem step_eq_stepAt (s : State) : step s = stepAt Config.spec s := by
  unfold step stepAt fetch
  cases s.notEnabled with
  | some o => rfl
  | none =>
    cases fetchWith Config.spec.highDigitPolicy s with
    | error r => rfl
    | ok i => exact exec_eq_execAt i s

/-- A meaning completes or takes a fault: it turns nothing away. -/
theorem execAt_cases (c : Config) (i : Instr) (s : State) :
    (∃ r, execAt c i s = takeFault r s) ∨ ∃ t, execAt c i s = .next t := by
  cases i with
  | add m1 m2 m3 =>
    obtain ⟨r, -, h⟩ | ⟨_, _, d, -, -, -, -, ⟨-, h⟩ | ⟨_, -, h⟩⟩ := execAddAt_cases c m1 m2 m3 s
    exacts [.inl ⟨r, h⟩, .inl ⟨_, h⟩, .inr ⟨_, h⟩]
  | mul m1 m2 m3 =>
    obtain ⟨r, -, h⟩ | ⟨_, _, d, -, -, -, -, ⟨-, h⟩ | ⟨_, -, h⟩⟩ := execMulAt_cases c m1 m2 m3 s
    exacts [.inl ⟨r, h⟩, .inl ⟨_, h⟩, .inr ⟨_, h⟩]
  | inp m1 =>
    obtain ⟨r, -, h⟩ | ⟨d, -, -, ⟨-, h⟩ | ⟨_, _, -, h⟩⟩ := execInp_cases m1 s
    exacts [.inl ⟨r, h⟩, .inl ⟨_, h⟩, .inr ⟨_, h⟩]
  | out m1 =>
    obtain ⟨r, -, h⟩ | ⟨a, -, h⟩ := execOut_cases m1 s
    exacts [.inl ⟨r, h⟩, .inr ⟨_, h⟩]
  | halt => exact .inr ⟨_, rfl⟩

/-- A fault that a meaning answers is the diagnostic of one reason (60_exceptions.md R161, R162). -/
theorem execAt_eq_fault {c : Config} {i : Instr} {s : State} {f : Fault} (h : execAt c i s = .fault f) :
    ∃ r, FaultsWith s r f := by
  obtain ⟨r, e⟩ | ⟨t, e⟩ := execAt_cases c i s
  · exact ⟨r, takeFault_eq_fault.1 (e ▸ h)⟩
  · rw [e] at h; cases h

/-- What a Step can answer: it is turned away outside status Running; in status Running FETCH or DECODE faults, or the
answer is that of the instruction. -/
theorem stepAt_cases (c : Config) (s : State) :
    (s.status ≠ .running ∧ ∃ why, s.notEnabled = some why ∧ stepAt c s = .refused why) ∨
      s.status = .running ∧
        ((∃ r, fetchWith c.highDigitPolicy s = .error r ∧ stepAt c s = takeFault r s) ∨
          ∃ i, fetchWith c.highDigitPolicy s = .ok i ∧ stepAt c s = execAt c i s) := by
  unfold stepAt
  cases hn : s.notEnabled with
  | some why => exact .inl ⟨fun h => by simp [notEnabled_eq_none.2 h] at hn, why, rfl, rfl⟩
  | none =>
    refine .inr ⟨notEnabled_eq_none.1 hn, ?_⟩
    cases fetchWith c.highDigitPolicy s with
    | error r => exact .inl ⟨r, rfl, rfl⟩
    | ok i => exact .inr ⟨i, rfl, rfl⟩

/-- A Step that answers a next state fetched an instruction in status Running, and that instruction completed. -/
theorem stepAt_eq_next {c : Config} {s t : State} (h : stepAt c s = .next t) :
    s.status = .running ∧ ∃ i, fetchWith c.highDigitPolicy s = .ok i ∧ execAt c i s = .next t := by
  obtain ⟨-, why, -, e⟩ | ⟨hs, ⟨r, -, e⟩ | ⟨i, hi, e⟩⟩ := stepAt_cases c s
  · rw [e] at h; cases h
  · rw [e] at h; cases h
  · exact ⟨hs, i, hi, e ▸ h⟩

/-- A Step that answers a fault was performed in status Running and is the diagnostic of one reason: only the latch has
changed (60_exceptions.md R162). -/
theorem stepAt_eq_fault {c : Config} {s : State} {f : Fault} (h : stepAt c s = .fault f) :
    s.status = .running ∧ ∃ r, FaultsWith s r f := by
  obtain ⟨-, why, -, e⟩ | ⟨hs, ⟨r, -, e⟩ | ⟨i, -, e⟩⟩ := stepAt_cases c s
  · rw [e] at h; cases h
  · exact ⟨hs, r, takeFault_eq_fault.1 (e ▸ h)⟩
  · exact ⟨hs, execAt_eq_fault (e ▸ h)⟩

/-- Outside status Running a Step answers neither a next state nor a fault (44_host_operations.md R140). -/
theorem stepAt_refused {c : Config} {s : State} (h : s.status ≠ .running) : ∃ why, stepAt c s = .refused why := by
  obtain ⟨-, why, -, e⟩ | ⟨hs, -⟩ := stepAt_cases c s
  · exact ⟨why, e⟩
  · exact absurd hs h

/-! ## The word placed for the next fetch -/

theorem getCell_setCells_below (cs : List (Nat × Word)) {k a : Nat} (ws : List Word) (h : a < k) :
    getCell (setCells cs k ws) a = getCell cs a := by
  induction ws generalizing cs k with
  | nil => rfl
  | cons v ws ih =>
    rw [setCells, ih _ (Nat.lt_succ_of_lt h), getCell_setCell_ne _ _ (Nat.ne_of_lt h)]

/-- The first of the words placed is the word read at their address. -/
theorem read_place {m : Memory} (k : Nat) (v : Word) (ws : List Word) (h : m.wf) :
    (m.place k (v :: ws)).read (k : Int) = some v := by
  refine read_eq_some.2 ⟨⟨Int.natCast_nonneg k, ?_⟩, ?_⟩
  · simp only [Memory.place, List.length_cons]; omega
  · simp only [Memory.place, Int.toNat_natCast, setCells]
    rw [getCell_setCells_below _ _ (Nat.lt_succ_self k), getCell_setCell_same _ _ h.1]

/-- Where the decoder reads an instruction from table bits, the next Step after placing them runs exactly it. -/
theorem step_withFetchWord {s : State} {nbits w : Nat} {i : Instr} (hm : s.mem.wf)
    (h : decodeTableWord nbits w = some i) :
    step (s.withFetchWord nbits w) = exec i (s.withFetchWord nbits w) := by
  have hd : decode (tableCell nbits w 0) = .ok i := by
    unfold decodeTableWord at h
    split at h
    · rename_i i' hi; cases h; exact hi
    · cases h
  have hf : fetch (s.withFetchWord nbits w) = .ok i :=
    fetchWith_eq_ok.2 ⟨tableCell nbits w 0, read_place s.pc _ _ hm, hd⟩
  have hn : (s.withFetchWord nbits w).notEnabled = none := notEnabled_eq_none.2 (status_eq_running.2 ⟨rfl, rfl, rfl⟩)
  simp only [step, hn, hf]

end Sys2Proof.Machine
end

