-- ==== Sys2Proof/Tests/Slice0.lean ====
section
/-!
SUPPORT. The model's own tests. Every expected result comes from the spec: the tables of 30_encoding.md, the vectors of
95_test_vectors.md (named S, DV, M, X, AV, Q, HV there), or the rule cited. Then the witnesses: for each statement with
hypotheses, a state and operands that meet all of them.
-/

namespace Sys2Proof.Tests

open Sys2Proof Sys2Proof.Machine

/-- The state that Construct(program, input) leaves, from which every vector starts. -/
abbrev boot (program : List Word) (input : List Word := []) : State := constructedState program input

/-- The state after one Step, and `s` itself where no Step is performed. -/
abbrev after (s : State) : State := stepTransaction step s

/-! ## Well-formedness: an ill-formed term for each check -/

theorem test_wf_refuses_immediate_target :
    (Instr.add .position .position .immediate).wf = false ∧ (Instr.mul .immediate .immediate .immediate).wf = false ∧
      (Instr.inp .immediate).wf = false := by decide

theorem test_config_wf_refuses_narrow_word : ¬ ({ Config.spec with wordBits := 11 } : Config).wf := by decide

/-! ## Decoding: words written out by the digits of 30_encoding.md R62 -/

/-- 1 0 0 1: m_2 = 1, opcode 01 (R71, R74 table). -/
theorem test_decode_add : decode 1001 = .ok (.add .position .immediate .position) := by decide

/-- 1 1 0 2: m_2 = 1, m_1 = 1, opcode 02. -/
theorem test_decode_mul :
    decode 1102 = .ok (.mul .immediate .immediate .position) ∧
      decode 102 = .ok (.mul .immediate .position .position) := by decide

/-- 3: m_1 = 0, opcode 03. -/
theorem test_decode_inp : decode 3 = .ok (.inp .position) := by decide

/-- 1 0 4: m_1 = 1, opcode 04; and 4: m_1 = 0. -/
theorem test_decode_out : decode 104 = .ok (.out .immediate) ∧ decode 4 = .ok (.out .position) := by decide

/-- 9 9: opcode 99. -/
theorem test_decode_halt : decode 99 = .ok .halt := by decide

/-- DV2 to DV13, DV27, DV28: unknown opcodes and high digits. -/
theorem test_decode_rejects_words :
    ([0, 100, 5, 98, -1, -99].all fun v => decode v == .error .unknownOpcode) = true ∧
      ([199, 10099, 1003, 10003, 1004, 100001, 110001, 20003].all fun v => decode v == .error .reservedDigits) = true := by
  decide

/-- DV14 to DV26: mode digits. -/
theorem test_decode_rejects_modes :
    ([201, 2001, 20001, 204, 903, 21101].all fun v => decode v == .error .invalidMode) = true ∧
      ([10001, 10101, 11001, 11101, 10002, 11102, 103].all fun v => decode v == .error .writeImmediate) = true := by decide

/-- DV29 to DV33: HIGH_DIGIT_POLICY = ignore. -/
theorem test_decode_ignore :
    decodeWith .ignore 199 = .ok .halt ∧ decodeWith .ignore 10003 = .ok (.inp .position) ∧
      decodeWith .ignore 1004 = .ok (.out .position) ∧
      decodeWith .ignore 100001 = .ok (.add .position .position .position) ∧
      decodeWith .ignore 110001 = .error .writeImmediate := by decide

/-- The table of R74. -/
theorem test_assemble :
    assembleAll [.instr (.add (.lit 5) (.lit 7) 0), .instr (.mul (.lit 6) (.cell 7) 8), .instr (.inp 0),
      .instr (.out (.lit (-5))), .instr .halt, .words [30]] = [1101, 5, 7, 0, 102, 6, 7, 8, 3, 0, 104, -5, 99, 30] := by
  decide

/-! ## The host's words -/

theorem test_table_words :
    decodeTableWord 8 1 = some (.add .position .position .position) ∧ decodeTableWord 64 1102 =
      some (.mul .immediate .immediate .position) ∧ decodeTableWord 8 3 = some (.inp .position) ∧
      decodeTableWord 8 4 = some (.out .position) ∧ decodeTableWord 8 99 = some .halt ∧ decodeTableWord 8 5 = none := by
  decide

/-- All ones is the word −1, and the second cell starts at bit 64 (log 11). -/
theorem test_table_cells :
    tableCells 128 (2 ^ 64 - 1 + 7 * 2 ^ 64) = [-1, 7, 0, 0] := by decide

/-- Each instruction runs as the first one after reset: its effect on pc, running, M[0], the log and the latch. -/
theorem test_first_step_after_reset :
    ([1, 2, 3, 4, 99].map fun w =>
      let t := after (State.reset.withFetchWord 8 w)
      (t.pc, t.running, t.mem.read 0, t.outq, t.latch.cause)) =
    [(4, true, some 2, [], .none), (4, true, some 4, [], .none), (0, true, some 3, [], .inputStarvation),
      (2, true, some 4, [4], .none), (1, false, some 99, [], .none)] := by decide

/-! ## Instructions: one Step each -/

/-- S2: operands, destination and instruction word are one cell; reads come before the write. -/
theorem test_add_same_cell :
    let t := after (boot [1, 0, 0, 0, 99])
    t.mem.contents = [2, 0, 0, 0, 99] ∧ t.pc = 4 := by decide

/-- X9 under `fault`, and under `wrap` and `saturate`. -/
theorem test_add_overflow :
    let s := boot [1101, 9223372036854775807, 1, 0]
    (after s).latch = ⟨.numericOverflow, 0, 0, 0⟩ ∧ (after s).mem = s.mem ∧
      (stepTransaction (stepAt { Config.spec with overflowPolicy := .wrap }) s).mem.read 0 = some (-9223372036854775808) ∧
      (stepTransaction (stepAt { Config.spec with overflowPolicy := .saturate }) s).mem.read 0 =
        some 9223372036854775807 := by decide

/-- S5: 1002 with M[4] = 33 and the immediate 3. -/
theorem test_mul_mixed_modes :
    let t := after (boot [1002, 4, 3, 4, 33])
    t.mem.contents = [1002, 4, 3, 4, 99] ∧ t.pc = 4 := by decide

/-- X23: 3037000500 squared, under `fault` and under `wrap`. -/
theorem test_mul_overflow :
    let s := boot [1102, 3037000500, 3037000500, 0]
    (after s).latch = ⟨.numericOverflow, 0, 0, 0⟩ ∧
      (stepTransaction (stepAt { Config.spec with overflowPolicy := .wrap }) s).mem.read 0 =
        some (-9223372036709301616) := by decide

/-- S7, Step 1. -/
theorem test_inp_pops_oldest :
    let t := after (boot [3, 0, 4, 0, 99] [7, 8])
    t.mem.contents = [7, 0, 4, 0, 99] ∧ t.inq = [8] ∧ t.pc = 2 := by decide

/-- AV13 and AV15: a bad destination keeps the queue, and comes before starvation. -/
theorem test_inp_target_first :
    (after (boot [3, 2] [1])).inq = [1] ∧ (after (boot [3, 2] [1])).latch = ⟨.addressingError, 5, 0, 2⟩ ∧
      (after (boot [3, 5])).latch = ⟨.addressingError, 5, 0, 5⟩ := by decide

/-- Q2, Step 1: a negative immediate. -/
theorem test_out_immediate :
    (after (boot [104, -5, 99])).outq = [-5] ∧ (after (boot [104, -5, 99])).pc = 2 := by decide

/-- AV19: a negative address is out of range. -/
theorem test_out_negative_address :
    (after (boot [4, -3])).latch = ⟨.addressingError, 4, 0, -3⟩ ∧ (after (boot [4, -3])).outq = [] := by decide

/-- S1 and HV1. -/
theorem test_halt :
    let t := after (boot [99])
    t.pc = 1 ∧ t.running = false ∧ t.status = .halted ∧ t.mem.contents = [99] := by decide

/-! ## Faults and the host's transactions -/

/-- AV1 to AV5: pc, slots, and operand 1 before slot 3. -/
theorem test_addressing_faults :
    ([[], [1], [1, 0], [1, 0, 0], [1, 50, 0]].map fun p => (after (boot p)).latch) =
      [⟨.addressingError, 1, 0, 0⟩, ⟨.addressingError, 3, 0, 1⟩, ⟨.addressingError, 3, 0, 2⟩,
        ⟨.addressingError, 3, 0, 3⟩, ⟨.addressingError, 4, 0, 50⟩] := by decide

/-- HV2 and HV4: a Step of a Halted or Faulted machine is not performed. HV5: Construct clears the latch. -/
theorem test_step_not_performed :
    let h := after (boot [99])
    let f := after (boot [0])
    after h = h ∧ after f = f ∧ f.status = .faulted ∧
      perform Config.spec (.construct [99] []) f = boot [99] := by decide

/-- R131: a value that is no word is refused. R137: an index that is not valid is refused. -/
theorem test_refused_transactions :
    perform Config.spec (.construct [9223372036854775808] []) (boot [99]) = boot [99] ∧
      (inspect (.cell 1) (boot [99]) matches .error .inspectInvalidIndex) ∧
      (inspect (.cell 0) (boot [99]) matches .ok 99) := by decide

/-! ## Witnesses: each statement's hypotheses are met together -/

/-- EncodedWordDecodesBack. -/
theorem witness_wellFormed : (Instr.add .immediate .position .position).wf = true := by decide

/-- RejectionsComeInOrder: a word for each clause (30_encoding.md R71, R72). -/
theorem witness_rejections :
    20001 % 100 = 1 ∧ 110001 % 100 = 1 ∧ 11102 % 100 = 2 ∧ 903 % 100 = 3 ∧ 20003 % 100 = 3 ∧ 103 % 100 = 3 ∧
      204 % 100 = 4 ∧ 1004 % 100 = 4 ∧ 199 % 100 = 99 := by decide

/-- AssembledCellsReadBack. -/
theorem witness_disassemble : disassemble [104, -5, 99] = some (.out (.lit (-5)), [99]) := by decide

/-- StepRunsTheDecodedInstruction, HaltCompletes. -/
theorem witness_runs :
    (boot [99]).status = .running ∧ (boot [99]).mem.read ((boot [99]).pc : Int) = some 99 ∧ decode 99 = .ok .halt := by
  decide

/-- FetchOutsideMemoryFaults, at pc = len. -/
theorem witness_fetchOutside : (boot []).status = .running ∧ (boot []).mem.len ≤ (boot []).pc := by decide

/-- UnknownOpcodeFaults, at the ends of the ranges of illegal opcodes; NegativeWordFaults, at −1. -/
theorem witness_unknownOpcode :
    (∀ v ∈ [(0 : Int), 5, 98, 100], (boot [v]).status = .running ∧ (boot [v]).mem.read ((boot [v]).pc : Int) = some v ∧
      0 ≤ v ∧ v % 100 ∉ [(1 : Int), 2, 3, 4, 99]) ∧
      (boot [-1]).status = .running ∧ (boot [-1]).mem.read ((boot [-1]).pc : Int) = some (-1) ∧ (-1 : Int) < 0 := by decide

/-- DecodeFailureChangesOnlyTheLatch, for each rejection. -/
theorem witness_decodeFailure :
    ∀ x ∈ [((0 : Int), Reject.unknownOpcode), (201, .invalidMode), (199, .reservedDigits), (103, .writeImmediate)],
      (boot [x.1]).status = .running ∧ (boot [x.1]).mem.read ((boot [x.1]).pc : Int) = some x.1 ∧
        decode x.1 = .error x.2 := by decide

/-- PcAdvancesByTheWidth, RunIsSteps, PcStrictlyIncreases, QueuesChangeOnlyByTheirInstruction, OutputLogIsNeverRead,
OnlyConstructChangesLen, RunningIsClearedByHaltAlone, FaultIsADistinctOutcome: a Step that completes and one that
faults. -/
theorem witness_step :
    step (boot [99]) = .next (after (boot [99])) ∧ (after (boot [99])).running = false ∧
      step (boot [0]) = .fault (.decodeError (after (boot [0]))) ∧ (after (boot [0])).latch.cause = .decodeError :=
  ⟨rfl, rfl, rfl, rfl⟩

/-- StopsAreNamed: a fault of each class. -/
theorem witness_faultClasses :
    step (boot [-1]) = .fault (.decodeError (after (boot [-1]))) ∧
      step (boot []) = .fault (.addressingError (after (boot []))) ∧
      step (boot [3, 0]) = .fault (.inputStarvation (after (boot [3, 0]))) ∧
      step (boot [1101, 9223372036854775807, 1, 0]) =
        .fault (.numericOverflow (after (boot [1101, 9223372036854775807, 1, 0]))) :=
  ⟨rfl, rfl, rfl, rfl⟩

/-- StepIsAllOrNothing, EveryRunEnds: status Running. NoStepOutsideRunning, StopsAreNamed, FaultedUntilConstruct,
UnconstructedAllowsOnlyConstruct: the other three. -/
theorem witness_statuses :
    (boot [99]).status = .running ∧ (after (boot [99])).status = .halted ∧ (after (boot [0])).status = .faulted ∧
      ({ boot [99] with constructed := false } : State).status = .unconstructed := by decide

/-- AddCompletes, with the largest sum that is a word; ArithmeticCompletesUnderEveryPolicy. -/
theorem witness_add :
    let s := boot [1001, 4, 1, 0, 9223372036854775806]
    s.Operand .position 1 9223372036854775806 ∧ s.Operand .immediate 2 1 ∧ s.Target 3 0 ∧
      IsWord 64 (9223372036854775806 + 1) ∧
      overflowAt { Config.spec with overflowPolicy := .wrap } (9223372036854775806 + 1) = some 9223372036854775807 :=
  ⟨⟨4, by decide, by decide⟩, ⟨1, by decide, rfl⟩, ⟨by decide, by decide, by decide⟩, by decide, by decide⟩

/-- MultiplyCompletes, with WORD_MIN × 1 and the last cell as the destination; also the witness of the wrapped product. -/
theorem witness_mul :
    let s := boot [1102, -9223372036854775808, 1, 3]
    s.Operand .immediate 1 (-9223372036854775808) ∧ s.Operand .immediate 2 1 ∧ s.Target 3 3 ∧
      IsWord 64 (-9223372036854775808 * 1) ∧
      overflowAt { Config.spec with overflowPolicy := .wrap } (-9223372036854775808 * -1) = some (-9223372036854775808) :=
  ⟨⟨_, by decide, rfl⟩, ⟨_, by decide, rfl⟩, ⟨by decide, by decide, by decide⟩, by decide, by decide⟩

/-- InputCompletes and EmptyQueueFaults, with the destination in the last cell. -/
theorem witness_inp :
    (boot [3, 1] [7]).Target 1 1 ∧ (boot [3, 1] [7]).inq = [7] ∧ (boot [3, 1]).Target 1 1 ∧ (boot [3, 1]).inq = [] :=
  ⟨⟨by decide, by decide, by decide⟩, rfl, ⟨by decide, by decide, by decide⟩, rfl⟩

/-- OutputCompletes, in both modes. -/
theorem witness_out : (boot [4, 0]).Operand .position 1 4 ∧ (boot [104, -5]).Operand .immediate 1 (-5) :=
  ⟨⟨0, by decide, by decide⟩, ⟨-5, by decide, rfl⟩⟩

/-- OperandsAreReadBeforeTheWrite: all three slots name cell 4. -/
theorem witness_readBeforeWrite :
    let s := boot [1, 4, 4, 4, 3]
    s.mem.wf ∧ (∀ k ∈ [1, 2, 3], s.mem.read (slotAddress k s) = some 4) ∧ s.mem.read 4 = some 3 ∧
      IsWord 64 (3 + 3) ∧ IsWord 64 (3 * 3) := by decide

/-- StoredWordIsFetchedNext: an Add, a Multiply and an Input that store a Halt into the next instruction's cell. -/
theorem witness_storedWord :
    let s := boot [1101, 90, 9, 4, 0]
    let u := boot [1102, 33, 3, 4, 0]
    let q := boot [3, 2, 0] [99]
    (s.mem.wf ∧ s.status = .running ∧ s.Operand .immediate 1 90 ∧ s.Operand .immediate 2 9 ∧
      s.Target 3 (slotAddress 4 s) ∧ IsWord 64 (90 + 9) ∧ decode (90 + 9) = .ok .halt) ∧
    (u.mem.wf ∧ u.status = .running ∧ u.Operand .immediate 1 33 ∧ u.Operand .immediate 2 3 ∧
      u.Target 3 (slotAddress 4 u) ∧ IsWord 64 (33 * 3) ∧ decode (33 * 3) = .ok .halt) ∧
    q.mem.wf ∧ q.status = .running ∧ q.Target 1 (slotAddress 2 q) ∧ q.inq = [99] ∧ decode 99 = .ok .halt :=
  ⟨⟨by decide, by decide, ⟨_, by decide, rfl⟩, ⟨_, by decide, rfl⟩, ⟨by decide, by decide, by decide⟩, by decide, by decide⟩,
    ⟨by decide, by decide, ⟨_, by decide, rfl⟩, ⟨_, by decide, rfl⟩, ⟨by decide, by decide, by decide⟩, by decide, by decide⟩,
    by decide, by decide, ⟨by decide, by decide, by decide⟩, rfl, by decide⟩

/-- OverflowFollowsThePolicy, at both ends of the range; HaltedResultHoldsForEveryPolicy: a wider machine that wraps. -/
theorem witness_policies :
    1 ≤ Config.spec.wordBits ∧ IsWord 64 9223372036854775807 ∧ ¬ IsWord 64 9223372036854775808 ∧
      IsWord 64 (-9223372036854775808) ∧ ¬ IsWord 64 (-9223372036854775809) ∧
      wordMax 64 < 9223372036854775808 ∧ (-9223372036854775809 : Int) < wordMin 64 ∧
      Config.spec.overflowPolicy = .fault ∧ Config.spec.highDigitPolicy = .fault ∧
      Config.spec.wordBits ≤ ({ Config.spec with wordBits := 128, overflowPolicy := .wrap } : Config).wordBits ∧
      (runAt Config.spec (boot [99])).Final := by
  refine ⟨by decide, by decide, by decide, by decide, by decide, by decide, by decide, rfl, rfl, by decide, ?_⟩
  show (runAt Config.spec (boot [99])).status = .halted
  decide

/-- OverflowFaults: a sum and a product one past the range. -/
theorem witness_overflow :
    let s := boot [1101, 9223372036854775807, 1, 0]
    let u := boot [1102, -9223372036854775808, -1, 0]
    (s.Operand .immediate 1 9223372036854775807 ∧ s.Operand .immediate 2 1 ∧ s.Target 3 0 ∧
      ¬ IsWord 64 (9223372036854775807 + 1)) ∧
    u.Operand .immediate 1 (-9223372036854775808) ∧ u.Operand .immediate 2 (-1) ∧ u.Target 3 0 ∧
      ¬ IsWord 64 (-9223372036854775808 * -1) :=
  ⟨⟨⟨_, by decide, rfl⟩, ⟨_, by decide, rfl⟩, ⟨by decide, by decide, by decide⟩, by decide⟩,
    ⟨_, by decide, rfl⟩, ⟨_, by decide, rfl⟩, ⟨by decide, by decide, by decide⟩, by decide⟩

/-- ArithmeticStaysInRange: words of opposite sign at the ends of the range, and the word that has no negation. -/
theorem witness_range :
    IsWord 64 (wordMin 64) ∧ IsWord 64 (wordMax 64) ∧ wordMin 64 ≤ 0 ∧ (0 : Int) ≤ wordMax 64 := by decide

/-- MissingSlotFaults: an Add in each of the last three cells (AV2 to AV4). -/
theorem witness_missingSlot :
    (boot [1]).mem.len ≤ (boot [1]).pc + 1 ∧
      ((boot [101, 5]).Operand .immediate 1 5 ∧ (boot [101, 5]).mem.len ≤ (boot [101, 5]).pc + 2) ∧
      (boot [1101, 5, 6]).Operand .immediate 1 5 ∧ (boot [1101, 5, 6]).Operand .immediate 2 6 ∧
      (boot [1101, 5, 6]).mem.len ≤ (boot [1101, 5, 6]).pc + 3 :=
  ⟨by decide, ⟨⟨_, by decide, rfl⟩, by decide⟩, ⟨_, by decide, rfl⟩, ⟨_, by decide, rfl⟩, by decide⟩

/-- ReadParametersResolve: operands 1 and 2 at the addresses −1 and len (AV6, AV8). -/
theorem witness_badOperand :
    let s := boot [1, -1, 0, 0]
    let u := boot [1, 0, 4, 0]
    (¬ (0 ≤ (-1 : Int) ∧ (-1 : Int) < s.mem.len) ∧ s.mem.read (slotAddress 1 s) = some (-1)) ∧
      ¬ (0 ≤ (4 : Int) ∧ (4 : Int) < u.mem.len) ∧ u.Operand .position 1 1 ∧ u.mem.read (slotAddress 2 u) = some 4 :=
  ⟨⟨by decide, by decide⟩, by decide, ⟨0, by decide, by decide⟩, by decide⟩

/-- WriteParametersResolve: a valid destination, and destinations at len and −1 (AV10, AV14). -/
theorem witness_badTarget :
    let s := boot [1, 0, 0, 4]
    let q := boot [3, -1] [1]
    (0 ≤ (0 : Int) ∧ (0 : Int) < s.mem.len ∧ s.mem.read (slotAddress 1 s) = some 0) ∧
      (¬ (0 ≤ (4 : Int) ∧ (4 : Int) < s.mem.len) ∧ s.Operand .position 1 1 ∧ s.Operand .position 2 1 ∧
        s.mem.read (slotAddress 3 s) = some 4) ∧
      ¬ (0 ≤ (-1 : Int) ∧ (-1 : Int) < q.mem.len) ∧ q.mem.read (slotAddress 1 q) = some (-1) ∧
      decodeWith .ignore 10003 = .ok (.inp .position) :=
  ⟨by decide, ⟨by decide, ⟨0, by decide, by decide⟩, ⟨0, by decide, by decide⟩, by decide⟩, by decide, by decide, by decide⟩

/-- IllFormedInstructionFaults. -/
theorem witness_illFormed : (Instr.inp .immediate).wf = false := by decide

/-- InstructionsRaiseOnlyTheirFaults: an Output with no slot. -/
theorem witness_raises :
    execAt Config.spec (.out .position) (boot [4]) = .fault (.addressingError (after (boot [4]))) := rfl

/-- ArithmeticFrame, InputFrame, OutputFrame, HaltFrame: forms that complete, with the address stored to. -/
theorem witness_frames :
    exec (.add .position .position .position) (boot [1, 0, 0, 0]) = .next (after (boot [1, 0, 0, 0])) ∧
      storeAddress (.add .position .position .position) (boot [1, 0, 0, 0]) = some 0 ∧
      exec (.mul .immediate .immediate .position) (boot [1102, 2, 3, 3]) = .next (after (boot [1102, 2, 3, 3])) ∧
      storeAddress (.mul .immediate .immediate .position) (boot [1102, 2, 3, 3]) = some 3 ∧
      exec (.inp .position) (boot [3, 0] [7]) = .next (after (boot [3, 0] [7])) ∧
      storeAddress (.inp .position) (boot [3, 0] [7]) = some 0 ∧
      exec (.out .immediate) (boot [104, 1]) = .next (after (boot [104, 1])) ∧
      exec .halt (boot [99]) = .next (after (boot [99])) :=
  ⟨rfl, by decide, rfl, by decide, rfl, by decide, rfl, rfl⟩

/-- The same statements, where the instruction faults. -/
theorem witness_faultFrames :
    exec (.add .position .position .immediate) (boot [10001]) = .fault (.addressingError (after (boot [10001]))) ∧
      exec (.mul .position .position .position) (boot [2]) = .fault (.addressingError (after (boot [2]))) ∧
      exec (.inp .position) (boot [3, 0]) = .fault (.inputStarvation (after (boot [3, 0]))) ∧
      exec (.out .position) (boot [4, 2]) = .fault (.addressingError (after (boot [4, 2]))) :=
  ⟨rfl, rfl, rfl, rfl⟩

/-- WriteChangesExactlyOneCell and CanonicalMemoriesAreEqual: a canonical memory, its last address, and the first one
past it. -/
theorem witness_memory :
    (Memory.load [0, 5]).wf ∧ (0 ≤ (1 : Int) ∧ (1 : Int) < (Memory.load [0, 5]).len) ∧
      ¬ (0 ≤ (2 : Int) ∧ (2 : Int) < (Memory.load [0, 5]).len) := by decide

/-- The statements about Construct: admitted and not admitted, at the ends of the word range, at the capacities and past
them. -/
theorem witness_admission :
    Admitted Config.spec [9223372036854775807, -9223372036854775808] [9223372036854775807] ∧
      ¬ Admitted Config.spec [9223372036854775808] [] ∧ ¬ Admitted { Config.spec with memCap := some 1 } [1, 2] [] ∧
      Admitted { Config.spec with memCap := some 2, inCap := some 1 } [1, 2] [3] ∧
      ¬ Admitted { Config.spec with inCap := some 0 } [1, 2] [3] := by
  decide

/-- RunningIsClearedByHaltAlone, OnlyConstructChangesLen, HaltFrame: transactions other than Construct;
InspectReadsTheState: a constructed machine with a log; FaultedUntilConstruct: a Faulted machine with one. -/
theorem witness_transactions :
    Transaction.isConstruct .run = false ∧ (after (boot [104, 1])).constructed = true ∧
      (after (boot [104, 1])).outq = [1] ∧ (after (boot [104, 1])).mem.read 1 = some 1 ∧
      (after (after (boot [104, 1]))).status = .faulted ∧ (after (after (boot [104, 1]))).outq = [1] := by decide

/-- StepKeepsTheInvariant: states that meet it, one that completes a Step and one that faults. -/
theorem witness_invariant :
    ((boot [104, 1]).Inv Config.spec ∧ step (boot [104, 1]) = .next (after (boot [104, 1]))) ∧
      (boot [0]).Inv Config.spec ∧ step (boot [0]) = .fault (.decodeError (after (boot [0]))) :=
  ⟨⟨⟨by decide, by decide, by decide, by decide, by decide, by decide, by decide, by decide, rfl, by decide⟩, rfl⟩,
    ⟨by decide, by decide, by decide, by decide, by decide, by decide, by decide, by decide, rfl, by decide⟩, rfl⟩

/-- EverySessionKeepsTheInvariant: a machine before its first Construct. -/
theorem witness_powerOn : ({ boot [5] with constructed := false, pc := 77 } : State).constructed = false := by decide

/-- UnreadInputDoesNotMatter: a Halted run that leaves an entry unread. -/
theorem witness_unreadInput : (run (boot [3, 0, 99] [7, 8])).Final := by
  show (run (boot [3, 0, 99] [7, 8])).status = .halted
  decide

end Sys2Proof.Tests
end

/-!
Memory accesses as a reasoning rule each: what a read returns after a write to the same and to another address, and what
a write outside the valid addresses does (00_scope.md R11, 20_memory.md R41, R46).
-/

namespace Sys2Proof.Machine

theorem write_of_inRange {m : Memory} {a : Int} (v : Word) (h : m.InRange a) :
    m.write a v = { m with cells := setCell m.cells a.toNat v } := if_pos h

theorem write_of_not_inRange {m : Memory} {a : Int} (v : Word) (h : ¬ m.InRange a) : m.write a v = m := if_neg h

theorem read_write_same {m : Memory} {a : Int} (v : Word) (hm : m.wf) (h : m.InRange a) :
    (m.write a v).read a = some v := by
  rw [write_of_inRange v h]
  exact read_eq_some.2 ⟨h, getCell_setCell_same _ _ hm.1⟩

theorem read_write_ne (m : Memory) {a x : Int} (v : Word) (hx : x ≠ a) : (m.write a v).read x = m.read x := by
  by_cases ha : m.InRange a
  · rw [write_of_inRange v ha]
    by_cases hr : m.InRange x
    · have hne : x.toNat ≠ a.toNat := by
        have := ha.1
        have := hr.1
        omega
      obtain ⟨w, hw⟩ := read_isSome_of_inRange hr
      rw [hw]
      exact read_eq_some.2 ⟨hr, (getCell_setCell_ne _ v hne).trans (read_eq_some.1 hw).2⟩
    · exact (read_eq_none.2 hr).symm ▸ read_eq_none.2 hr
  · rw [write_of_not_inRange v ha]

/-- Settles O37: one rule for each clause, each about a single access. -/
theorem writeChangesExactlyOneCell : Obligations.WriteChangesExactlyOneCell := by
  intro m a v hm
  exact ⟨read_write_same v hm, fun x hx => read_write_ne m v hx, write_len m a v,
    fun h => ⟨read_eq_none.2 h, write_of_not_inRange v h⟩⟩

end Sys2Proof.Machine

/-!
The decoder read backwards from the instruction: a word decodes to `i` exactly when its opcode and mode digits are those
of `encode i` and, under HIGH_DIGIT_POLICY = fault, nothing stands above them (30_encoding.md R70 to R74).
-/

namespace Sys2Proof

/-- The catalog row of an operation (30_encoding.md R68); `catalog_eq_some_iff` ties it to `catalog`. -/
def Op.row : Op → CatalogRow
  | .add => ⟨.add, [.read, .read, .write]⟩
  | .mul => ⟨.mul, [.read, .read, .write]⟩
  | .inp => ⟨.inp, [.write]⟩
  | .out => ⟨.out, [.read]⟩
  | .halt => ⟨.halt, []⟩

@[simp] theorem Op.row_op (o : Op) : o.row.op = o := by cases o <;> rfl

theorem Op.row_highDigits (o : Op) (n : Nat) : o.row.highDigits n = n / 10 ^ (o.width + 1) := by cases o <;> rfl

@[simp] theorem Op.instr_op (o : Op) (mode : Nat → Mode) : (o.instr mode).op = o := by cases o <;> rfl

/-- The catalog lists each operation's row under its opcode and nothing else. -/
theorem catalog_eq_some_iff {n : Nat} {row : CatalogRow} :
    catalog n = some row ↔ ∃ o : Op, n = o.opcode ∧ row = o.row := by
  constructor
  · intro h
    unfold catalog at h
    split at h
    · exact ⟨.add, rfl, (Option.some.inj h).symm⟩
    · exact ⟨.mul, rfl, (Option.some.inj h).symm⟩
    · exact ⟨.inp, rfl, (Option.some.inj h).symm⟩
    · exact ⟨.out, rfl, (Option.some.inj h).symm⟩
    · exact ⟨.halt, rfl, (Option.some.inj h).symm⟩
    · cases h
  · rintro ⟨o, rfl, rfl⟩
    cases o <;> rfl

/-! ## Digits -/

theorem mod_thousand_eq_digits (n : Nat) : n % 1000 = 100 * digit 2 n + opcodeOf n := by
  simp only [digit, opcodeOf]
  omega

theorem mod_hundredThousand_eq_digits (n : Nat) :
    n % 100000 = 10000 * digit 4 n + 1000 * digit 3 n + 100 * digit 2 n + opcodeOf n := by
  simp only [digit, opcodeOf]
  omega

theorem Mode.digit_le_one (m : Mode) : m.digit ≤ 1 := by cases m <;> decide

/-- A mode digit of a read parameter is legal and stands for `m` exactly when it is the digit of `m` (R66). -/
theorem readField_iff {d : Nat} {m : Mode} : d ≤ 1 ∧ m = modeOfDigit d ↔ d = m.digit := by
  constructor
  · rintro ⟨hd, rfl⟩
    interval_cases d <;> rfl
  · rintro rfl
    cases m <;> decide

/-- A mode digit of a write parameter passes both tests and stands for `m` exactly when `m` is legal there and the digit
is that of `m` (R70). -/
theorem writeField_iff {d : Nat} {m : Mode} :
    d ≤ 1 ∧ d ≠ 1 ∧ m = modeOfDigit d ↔ m.legalForWrite = true ∧ d = m.digit := by
  rw [← readField_iff]
  constructor
  · rintro ⟨hd, h1, rfl⟩
    obtain rfl : d = 0 := by omega
    decide
  · rintro ⟨hm, hd, rfl⟩
    interval_cases d
    · decide
    · exact absurd hm (by decide)

/-- The fields of a word with one mode field are read off its low three digits. -/
theorem fields_one_iff (m1 : Mode) {n o : Nat} (ho : o < 100) :
    n % 1000 = 100 * m1.digit + o ↔ opcodeOf n = o ∧ digit 2 n = m1.digit := by
  have := opcodeOf_lt n
  rw [mod_thousand_eq_digits]
  omega

/-- The fields of a word with three mode fields are read off its low five digits. -/
theorem fields_three_iff (m1 m2 m3 : Mode) {n o : Nat} (ho : o < 100) :
    n % 100000 = 10000 * m3.digit + 1000 * m2.digit + 100 * m1.digit + o ↔
      opcodeOf n = o ∧ digit 2 n = m1.digit ∧ digit 3 n = m2.digit ∧ digit 4 n = m3.digit := by
  have := opcodeOf_lt n
  have := digit_lt 2 n
  have := digit_lt 3 n
  have := m1.digit_le_one
  have := m2.digit_le_one
  rw [mod_hundredThousand_eq_digits]
  omega

/-! ## The tests of DECODE -/

/-- The opcode of `n` is that of `i`, its mode fields pass the tests of `i`'s row (30_encoding.md R70), and they hold the
modes of `i`. -/
def Instr.FieldsIn (i : Instr) (n : Nat) : Prop :=
  opcodeOf n = i.op.opcode ∧ i.op.row.hasInvalidMode n = false ∧ i.op.row.hasImmediateWrite n = false ∧
    i = i.op.instr fun k => modeOfDigit (digit (k + 1) n)

/-- DECODE in terms of the instruction it gives: the fields are those of `i`, and the high digits are empty where they
are examined. -/
theorem decodeWith_eq_ok_iff_fieldsIn {p : HighDigitPolicy} {v : Word} {i : Instr} :
    decodeWith p v = .ok i ↔ 0 ≤ v ∧ i.FieldsIn v.toNat ∧ (p = .fault → v.toNat / 10 ^ (i.width + 1) = 0) := by
  rw [decodeWith_eq_ok]
  refine and_congr_right fun _ => ⟨?_, ?_⟩
  · rintro ⟨row, hc, hmode, hhigh, hwrite, hi⟩
    obtain ⟨o, hop, rfl⟩ := catalog_eq_some_iff.1 hc
    rw [Op.row_op] at hi
    obtain rfl : o = i.op := by rw [hi, Op.instr_op]
    rw [Op.row_highDigits] at hhigh
    exact ⟨⟨hop, hmode, hwrite, hi⟩, by simpa [Instr.width] using hhigh⟩
  · rintro ⟨⟨hop, hmode, hwrite, hi⟩, hhigh⟩
    refine ⟨i.op.row, catalog_eq_some_iff.2 ⟨i.op, hop, rfl⟩, hmode, ?_, hwrite, by rwa [Op.row_op]⟩
    rw [Op.row_highDigits]
    simpa [Instr.width] using hhigh

/-! The tests of a row of each format (R64) and the modes it gives, as the digits of those modes. -/

theorem testsF3_iff (o : Op) (m1 m2 m3 : Mode) (n : Nat) :
    (CatalogRow.mk o [.read, .read, .write]).hasInvalidMode n = false ∧
        (CatalogRow.mk o [.read, .read, .write]).hasImmediateWrite n = false ∧
        m1 = modeOfDigit (digit 2 n) ∧ m2 = modeOfDigit (digit 3 n) ∧ m3 = modeOfDigit (digit 4 n) ↔
      digit 2 n = m1.digit ∧ digit 3 n = m2.digit ∧ m3.legalForWrite = true ∧ digit 4 n = m3.digit := by
  have hmode : (CatalogRow.mk o [.read, .read, .write]).hasInvalidMode n = false ↔
      digit 2 n ≤ 1 ∧ digit 3 n ≤ 1 ∧ digit 4 n ≤ 1 := by simp [CatalogRow.hasInvalidMode, CatalogRow.params]
  have hwrite : (CatalogRow.mk o [.read, .read, .write]).hasImmediateWrite n = false ↔ digit 4 n ≠ 1 := by
    simp [CatalogRow.hasImmediateWrite, CatalogRow.params]
  rw [hmode, hwrite, ← readField_iff, ← readField_iff, ← writeField_iff]
  tauto

theorem testsF1W_iff (o : Op) (m1 : Mode) (n : Nat) :
    (CatalogRow.mk o [.write]).hasInvalidMode n = false ∧ (CatalogRow.mk o [.write]).hasImmediateWrite n = false ∧
        m1 = modeOfDigit (digit 2 n) ↔
      m1.legalForWrite = true ∧ digit 2 n = m1.digit := by
  rw [← writeField_iff]
  simp [CatalogRow.hasInvalidMode, CatalogRow.hasImmediateWrite, CatalogRow.params]

theorem testsF1R_iff (o : Op) (m1 : Mode) (n : Nat) :
    (CatalogRow.mk o [.read]).hasInvalidMode n = false ∧ (CatalogRow.mk o [.read]).hasImmediateWrite n = false ∧
        m1 = modeOfDigit (digit 2 n) ↔
      digit 2 n = m1.digit := by
  rw [← readField_iff]
  simp [CatalogRow.hasInvalidMode, CatalogRow.hasImmediateWrite, CatalogRow.params]

/-- The fields are those of `i` exactly when `i` is well-formed and its encoding stands in the low `width + 1` digits. -/
theorem fieldsIn_iff (i : Instr) (n : Nat) :
    i.FieldsIn n ↔ i.wf = true ∧ ((n % 10 ^ (i.width + 1) : Nat) : Int) = encode i := by
  cases i <;>
    simp only [Instr.FieldsIn, Instr.op, Op.row, Op.instr, Instr.add.injEq, Instr.mul.injEq, Instr.inp.injEq,
      Instr.out.injEq, testsF3_iff, testsF1W_iff, testsF1R_iff, Instr.wf, encode, width_add, width_mul, width_inp,
      width_out, width_halt, Int.natCast_inj, Nat.reduceAdd, Nat.reducePow]
  case add m1 m2 m3 =>
    rw [fields_three_iff m1 m2 m3 (by decide)]
    tauto
  case mul m1 m2 m3 =>
    rw [fields_three_iff m1 m2 m3 (by decide)]
    tauto
  case inp m1 =>
    rw [fields_one_iff m1 (by decide)]
    tauto
  case out m1 =>
    rw [fields_one_iff m1 (by decide)]
    tauto
  case halt => exact ⟨fun h => ⟨trivial, h.1⟩, fun h => ⟨h.2, rfl, rfl, trivial⟩⟩

/-- DECODE under either policy, from the encoding of the instruction it gives (30_encoding.md R70, R71, R74). -/
theorem decodeWith_eq_ok_iff_encode {p : HighDigitPolicy} {v : Word} {i : Instr} :
    decodeWith p v = .ok i ↔
      0 ≤ v ∧ (i.wf = true ∧ v % 10 ^ (i.width + 1) = encode i) ∧ (p = .fault → v / 10 ^ (i.width + 1) = 0) := by
  rw [decodeWith_eq_ok_iff_fieldsIn]
  refine and_congr_right fun hv => ?_
  lift v to Nat using hv
  rw [fieldsIn_iff, Int.toNat_natCast]
  norm_cast

/-- Settles O4: under `ignore` the condition on the high digits of `decodeWith_eq_ok_iff_encode` is void. -/
theorem ignorePolicyReadsOnlyTheFields : Obligations.IgnorePolicyReadsOnlyTheFields := by
  intro v i
  rw [decodeWith_eq_ok_iff_encode]
  simp

end Sys2Proof

/-!
The invariant of a constructed machine (`State.Inv`): one rule per update of the state, then one lemma for the
instructions and one for fault entry.
-/

namespace Sys2Proof.Machine

/-! ## Words in memory -/

/-- A cell holds the blank word or a word that the list has. -/
theorem getCell_eq_blank_or_mem (cs : List (Nat × Word)) (a : Nat) :
    getCell cs a = blankWord ∨ ∃ x ∈ cs, x.2 = getCell cs a := by
  induction cs with
  | nil => exact .inl rfl
  | cons c cs ih =>
    obtain ⟨b, w⟩ := c
    by_cases hab : a = b
    · exact .inr ⟨(b, w), by simp, by simp [getCell, hab]⟩
    · simp only [getCell, if_neg hab]
      exact ih.imp_right fun ⟨x, hx, e⟩ => ⟨x, List.mem_cons_of_mem _ hx, e⟩

theorem blankWord_isWord (W : Nat) : IsWord W blankWord := by
  have : (0 : Int) < 2 ^ (W - 1) := by positivity
  unfold IsWord wordMin wordMax blankWord
  omega

theorem State.Inv.read_isWord {c : Config} {s : State} {a : Int} {v : Word} (h : s.Inv c)
    (hv : s.mem.read a = some v) : IsWord c.wordBits v := by
  obtain ⟨-, rfl⟩ := read_eq_some.1 hv
  obtain e | ⟨x, hx, e⟩ := getCell_eq_blank_or_mem s.mem.cells a.toNat
  · exact e ▸ blankWord_isWord _
  · exact e ▸ h.memWords x hx

theorem State.Inv.operand_isWord {c : Config} {s : State} {m : Mode} {i : Nat} {v : Word} (h : s.Inv c)
    (hv : s.Operand m i v) : IsWord c.wordBits v := by
  obtain ⟨r, hr, hm⟩ := hv
  cases m with
  | immediate => exact hm ▸ h.read_isWord hr
  | position => exact h.read_isWord hm

/-! ## The updates of the state -/

theorem State.Inv.writeCell {c : Config} {s : State} {v : Word} (h : s.Inv c) (a : Int) (hv : IsWord c.wordBits v) :
    (s.writeCell a v).Inv c where
  __ := h
  memWf := write_wf a v h.memWf
  memWords x hx := (mem_write hx).elim (fun e => e ▸ hv) (h.memWords x)
  memCap := by simpa using h.memCap
  pcRange := by simpa using h.pcRange

theorem State.Inv.popInput {c : Config} {s : State} (h : s.Inv c) : s.popInput.Inv c where
  __ := h
  inqWords v hv := h.inqWords v (List.mem_of_mem_tail hv)
  inqCap k hk := (s.inq.length_tail.trans_le (Nat.sub_le _ _)).trans (h.inqCap k hk)

/-- Output appends a word once pc has passed its two cells (43_control.md R122 c). -/
theorem State.Inv.appendOutput {c : Config} {s : State} {v : Word} (h : s.Inv c) (hv : IsWord c.wordBits v)
    (hlen : 2 * (s.outq.length + 1) ≤ s.pc) : (s.appendOutput v).Inv c where
  __ := h
  outqWords x hx := by
    rcases List.mem_append.1 hx with hx | hx
    · exact h.outqWords x hx
    · exact List.mem_singleton.1 hx ▸ hv
  outqLen := by simpa using hlen

/-- pc advances where no fault has been taken (10_state.md R24). -/
theorem State.Inv.advance {c : Config} {s : State} {w : Nat} (h : s.Inv c) (hl : s.latch.cause = .none)
    (hpc : s.pc + w ≤ s.mem.len) : (s.advance w).Inv c where
  __ := h
  pcRange := hpc
  outqLen := h.outqLen.trans (Nat.le_add_right _ _)
  faultedShape hf := absurd hl hf

/-- WRITEBACK to a resolved destination and ADVANCE past its slot. -/
theorem State.Inv.writeback {c : Config} {s : State} {i : Nat} {d : Int} {v : Word} (h : s.Inv c)
    (hl : s.latch.cause = .none) (hd : s.Target i d) (hv : IsWord c.wordBits v) :
    ((s.writeCell d v).advance (i + 1)).Inv c :=
  (h.writeCell d hv).advance hl ((write_len s.mem d v).symm ▸ target_slot_lt hd)

theorem State.Inv.clearRunning {c : Config} {s : State} (h : s.Inv c) (hl : s.latch.cause = .none) :
    s.clearRunning.Inv c where
  __ := h
  faultedShape hf := absurd hl hf

/-- The latch that fault entry sets is one of the records of 60_exceptions.md R150 to R154. -/
theorem raise_latch_legal (s : State) (r : FaultReason) : (s.raise r).latch.Legal := by
  cases r <;> simp [FaultLatch.Legal, FaultReason.cause, FaultReason.sub, FaultReason.info]

theorem State.Inv.raise {c : Config} {s : State} (h : s.Inv c) (hrun : s.running = true) (r : FaultReason) :
    (s.raise r).Inv c where
  __ := h
  latchLegal := raise_latch_legal s r
  faultedShape _ := ⟨hrun, rfl⟩

/-! ## The Step -/

/-- An instruction that completes with no fault taken before, and with its word in memory, keeps the invariant. -/
theorem execAt_keeps_inv {c : Config} {i : Instr} {s t : State} (h : s.Inv c) (hl : s.latch.cause = .none)
    (hpc : s.pc < s.mem.len) (ht : execAt c i s = .next t) : t.Inv c := by
  cases i with
  | add m1 m2 m3 =>
    obtain ⟨a, b, d, res, -, -, -, hd, hres, rfl⟩ := execAddAt_eq_next ht
    exact h.writeback hl hd (overflowAt_isWord hres)
  | mul m1 m2 m3 =>
    obtain ⟨a, b, d, res, -, -, -, hd, hres, rfl⟩ := execMulAt_eq_next ht
    exact h.writeback hl hd (overflowAt_isWord hres)
  | inp m1 =>
    obtain ⟨d, x, rest, -, hd, hq, rfl⟩ := execInp_eq_next ht
    have hx : IsWord c.wordBits x := h.inqWords x (by simp [hq])
    exact h.popInput.writeback hl hd hx
  | out m1 =>
    obtain ⟨a, ha, rfl⟩ := execOut_eq_next ht
    have hadv : (s.advance 2).Inv c := h.advance hl (operand_slot_lt ha)
    exact hadv.appendOutput (h.operand_isWord ha) (Nat.add_le_add_right h.outqLen 2)
  | halt =>
    cases ht
    exact (h.clearRunning hl).advance hl hpc

theorem stepAt_next_keeps_inv {c : Config} {s t : State} (h : s.Inv c) (ht : stepAt c s = .next t) : t.Inv c := by
  obtain ⟨hs, i, hi, he⟩ := stepAt_eq_next ht
  obtain ⟨-, hl, -⟩ := status_eq_running.1 hs
  obtain ⟨v, hv, -⟩ := fetchWith_eq_ok.1 hi
  exact execAt_keeps_inv h hl (Int.ofNat_lt.1 (inRange_of_read hv).2) he

theorem stepAt_fault_keeps_inv {c : Config} {s : State} {f : Fault} (h : s.Inv c) (hf : stepAt c s = .fault f) :
    f.after.Inv c := by
  obtain ⟨hs, r, hr⟩ := stepAt_eq_fault hf
  obtain ⟨-, -, hrun⟩ := status_eq_running.1 hs
  have hafter : f.after = s.raise r := (congrArg Fault.after hr).trans (fault_after r _)
  exact hafter ▸ h.raise hrun r

/-- Settles O52: the two cases of a Step, for any parameters and for the spec's own. -/
theorem stepKeepsTheInvariant : Obligations.StepKeepsTheInvariant :=
  ⟨fun _ _ _ => stepAt_next_keeps_inv, fun _ _ _ => stepAt_fault_keeps_inv,
    fun s _ h ht => stepAt_next_keeps_inv h (step_eq_stepAt s ▸ ht),
    fun s _ h hf => stepAt_fault_keeps_inv h (step_eq_stepAt s ▸ hf)⟩

end Sys2Proof.Machine

/-!
What one completed instruction, one fault and one transaction do to the fields of the state (10_state.md R21 to R31).
-/

namespace Sys2Proof

/-- Under the spec's policy a word that decodes is the encoding of its instruction (30_encoding.md R71, R74). -/
theorem decode_eq_ok_encode {v : Word} {i : Instr} (h : decode v = .ok i) : i.wf = true ∧ v = encode i := by
  obtain ⟨-, ⟨hwf, hlow⟩, hhigh⟩ := decodeWith_eq_ok_iff_encode.1 h
  have hsplit := Int.emod_add_mul_ediv v (10 ^ (i.width + 1))
  rw [hlow, hhigh rfl, mul_zero, add_zero] at hsplit
  exact ⟨hwf, hsplit.symm⟩

/-- The one word of Halt is 99 (30_encoding.md R71). -/
theorem decode_eq_halt_iff {v : Word} : decode v = .ok .halt ↔ v = 99 :=
  ⟨fun h => (decode_eq_ok_encode h).2, fun h => h ▸ by decide⟩

/-- The one word of Input is 3 (30_encoding.md R71). -/
theorem eq_three_of_decode_inp {v : Word} {m1 : Mode} (h : decode v = .ok (.inp m1)) : v = 3 := by
  obtain ⟨hwf, rfl⟩ := decode_eq_ok_encode h
  cases m1 with
  | position => rfl
  | immediate => cases hwf

/-- The words of Output are 4 and 104 (30_encoding.md R71). -/
theorem eq_four_or_of_decode_out {v : Word} {m1 : Mode} (h : decode v = .ok (.out m1)) : v = 4 ∨ v = 104 := by
  obtain ⟨-, rfl⟩ := decode_eq_ok_encode h
  cases m1 with
  | position => exact .inl rfl
  | immediate => exact .inr rfl

end Sys2Proof

namespace Sys2Proof.Machine

/-! ## A completed instruction -/

/-- The updates that take `s` to `t` where the instruction `i` completes (R100, R101, R110, R111, R120);
`execAt_next_effect` ties it to the meanings. -/
inductive Effect (s : State) : Instr → State → Prop
  | add (m1 m2 m3 : Mode) (d : Int) (res : Word) : Effect s (.add m1 m2 m3) ((s.writeCell d res).advance 4)
  | mul (m1 m2 m3 : Mode) (d : Int) (res : Word) : Effect s (.mul m1 m2 m3) ((s.writeCell d res).advance 4)
  | inp (m1 : Mode) (d : Int) {x : Word} {rest : List Word} (hq : s.inq = x :: rest) :
    Effect s (.inp m1) ((s.popInput.writeCell d x).advance 2)
  | out (m1 : Mode) (a : Word) : Effect s (.out m1) ((s.appendOutput a).advance 2)
  | halt : Effect s .halt (s.clearRunning.advance 1)

theorem execAt_next_effect {c : Config} {i : Instr} {s t : State} (h : execAt c i s = .next t) : Effect s i t := by
  cases i with
  | add m1 m2 m3 =>
    obtain ⟨a, b, d, res, -, -, -, -, -, rfl⟩ := execAddAt_eq_next h
    exact .add m1 m2 m3 d res
  | mul m1 m2 m3 =>
    obtain ⟨a, b, d, res, -, -, -, -, -, rfl⟩ := execMulAt_eq_next h
    exact .mul m1 m2 m3 d res
  | inp m1 =>
    obtain ⟨d, x, rest, -, -, hq, rfl⟩ := execInp_eq_next h
    exact .inp m1 d hq
  | out m1 =>
    obtain ⟨a, -, rfl⟩ := execOut_eq_next h
    exact .out m1 a
  | halt =>
    cases h
    exact .halt

/-- A Step that answers a next state had the effect of the instruction that the word at pc decodes to. -/
theorem stepAt_next_effect {c : Config} {s t : State} (h : stepAt c s = .next t) :
    ∃ v i, s.mem.read (s.pc : Int) = some v ∧ decodeWith c.highDigitPolicy v = .ok i ∧ Effect s i t := by
  obtain ⟨-, i, hi, he⟩ := stepAt_eq_next h
  obtain ⟨v, hv, hd⟩ := fetchWith_eq_ok.1 hi
  exact ⟨v, i, hv, hd, execAt_next_effect he⟩

theorem step_next_effect {s t : State} (h : step s = .next t) :
    ∃ v i, s.mem.read (s.pc : Int) = some v ∧ decode v = .ok i ∧ Effect s i t :=
  stepAt_next_effect (step_eq_stepAt s ▸ h)

namespace Effect

variable {s t : State} {i : Instr}

theorem pc_eq (h : Effect s i t) : t.pc = s.pc + i.width := by cases h <;> rfl

theorem constructed_eq (h : Effect s i t) : t.constructed = s.constructed := by cases h <;> rfl

theorem latch_eq (h : Effect s i t) : t.latch = s.latch := by cases h <;> rfl

theorem len_eq (h : Effect s i t) : t.mem.len = s.mem.len := by cases h <;> simp

theorem running_of_halt (h : Effect s .halt t) : t.running = false := by cases h; rfl

theorem running_of_ne_halt (h : Effect s i t) (hi : i ≠ .halt) : t.running = s.running := by
  cases h with
  | halt => exact absurd rfl hi
  | _ => rfl

/-- The input queue stays, or the instruction is an Input and the first entry is gone (R30). -/
theorem inq_cases (h : Effect s i t) : t.inq = s.inq ∨ ∃ m1 x, i = .inp m1 ∧ s.inq = x :: t.inq := by
  cases h with
  | @inp m1 d x rest hq => exact .inr ⟨m1, x, rfl, by simp [hq]⟩
  | _ => exact .inl rfl

/-- The log stays, or the instruction is an Output and one word stands at the end (R31). -/
theorem outq_cases (h : Effect s i t) : t.outq = s.outq ∨ ∃ m1 a, i = .out m1 ∧ t.outq = s.outq ++ [a] := by
  cases h with
  | out m1 a => exact .inr ⟨m1, a, rfl, rfl⟩
  | _ => exact .inl rfl

end Effect

/-! ## A fault -/

/-- A Step that faults leaves the state of fault entry (60_exceptions.md R161). -/
theorem stepAt_fault_after {c : Config} {s : State} {f : Fault} (h : stepAt c s = .fault f) :
    ∃ r, f.after = s.raise r := by
  obtain ⟨-, r, hr⟩ := stepAt_eq_fault h
  exact ⟨r, (congrArg Fault.after hr).trans (fault_after r _)⟩

theorem step_fault_after {s : State} {f : Fault} (h : step s = .fault f) : ∃ r, f.after = s.raise r :=
  stepAt_fault_after (step_eq_stepAt s ▸ h)

/-! ## Transactions -/

/-- What every Step transaction keeps, the loop of Run keeps (44_host_operations.md R134). -/
theorem runFuel_keeps {P : State → Prop} {f : State → Answer} (hf : ∀ s, P s → P (stepTransaction f s)) (n : Nat)
    {s : State} (hs : P s) : P (runFuel f n s) := by
  induction n generalizing s with
  | zero => exact hs
  | succ n ih =>
    unfold runFuel
    split
    · exact ih (hf s hs)
    · exact hs

/-- A Step requested outside status Running changes nothing (R140). -/
theorem stepTransaction_of_not_running (c : Config) {s : State} (h : s.status ≠ .running) :
    stepTransaction (stepAt c) s = s := by
  obtain ⟨why, e⟩ := stepAt_refused (c := c) h
  rw [stepTransaction, e]
  rfl

/-- A Run requested outside status Running changes nothing (R134, R140). -/
theorem runAt_of_not_running (c : Config) {s : State} (h : s.status ≠ .running) : runAt c s = s := if_neg h

/-- Outside status Running only a Construct changes the machine (R140, R141). -/
theorem perform_of_not_running (c : Config) {tx : Transaction} {s : State} (h : s.status ≠ .running)
    (htx : tx.isConstruct = false) : perform c tx s = s := by
  cases tx with
  | construct program input => cases htx
  | step => exact stepTransaction_of_not_running c h
  | run => exact runAt_of_not_running c h
  | inspect q => rfl

theorem perform_construct_of_admitted {c : Config} {program input : List Word} (s : State)
    (h : Admitted c program input) : perform c (.construct program input) s = constructedState program input := by
  rw [perform, construct, if_pos h]
  rfl

theorem perform_construct_of_not_admitted {c : Config} {program input : List Word} (s : State)
    (h : ¬ Admitted c program input) : perform c (.construct program input) s = s := by
  rw [perform, construct, if_neg h]
  rfl

/-! ## pc -/

/-- Settles O13: the width of the completed instruction, and nothing of pc in fault entry or a request turned away. -/
theorem pcAdvancesByTheWidth : Obligations.PcAdvancesByTheWidth := by
  refine ⟨fun s t h => ?_, fun s f h => ?_, fun c s h => ⟨?_, ?_⟩, fun c s q => rfl, fun c program input s h => ?_⟩
  · obtain ⟨v, i, hv, hd, he⟩ := step_next_effect h
    refine ⟨v, i, hv, hd, ?_⟩
    cases i <;> exact he.pc_eq
  · obtain ⟨r, hr⟩ := step_fault_after h
    rw [hr, raise_pc]
  · rw [perform_of_not_running c h rfl]
  · rw [perform_of_not_running c h rfl]
  · rw [perform_construct_of_not_admitted s h]

/-! ## The length of memory -/

theorem stepAt_next_len {c : Config} {s t : State} (h : stepAt c s = .next t) : t.mem.len = s.mem.len := by
  obtain ⟨v, i, -, -, he⟩ := stepAt_next_effect h
  exact he.len_eq

theorem stepAt_fault_len {c : Config} {s : State} {f : Fault} (h : stepAt c s = .fault f) :
    f.after.mem.len = s.mem.len := by
  obtain ⟨r, hr⟩ := stepAt_fault_after h
  rw [hr, raise_mem]

theorem stepTransaction_len (c : Config) (s : State) : (stepTransaction (stepAt c) s).mem.len = s.mem.len := by
  unfold stepTransaction
  cases h : stepAt c s with
  | next t => exact stepAt_next_len h
  | fault f => exact stepAt_fault_len h
  | refused why => rfl

theorem perform_len (c : Config) {tx : Transaction} (s : State) (h : tx.isConstruct = false) :
    (perform c tx s).mem.len = s.mem.len := by
  cases tx with
  | construct program input => cases h
  | step => exact stepTransaction_len c s
  | run => exact runFuel_keeps (P := fun t => t.mem.len = s.mem.len) (fun t ht => (stepTransaction_len c t).trans ht) _ rfl
  | inspect q => rfl

/-- Settles O39: the length through a Step, each other transaction, and an admitted Construct. -/
theorem onlyConstructChangesLen : Obligations.OnlyConstructChangesLen := by
  refine ⟨fun _ _ _ => stepAt_next_len, fun _ _ _ => stepAt_fault_len, fun c _ s => perform_len c s,
    fun c program input s h => ?_⟩
  rw [perform_construct_of_admitted s h]
  rfl

/-! ## The flag -/

/-- After a completed Step the machine is Halted exactly when the flag is clear: the Step was taken in status Running
and set no latch. -/
theorem step_next_status_eq_halted_iff {s t : State} (h : step s = .next t) :
    t.status = .halted ↔ t.running = false := by
  obtain ⟨hs, -⟩ := stepAt_eq_next (step_eq_stepAt s ▸ h)
  obtain ⟨hcons, hlatch, -⟩ := status_eq_running.1 hs
  obtain ⟨v, i, -, -, he⟩ := step_next_effect h
  rw [status_eq_halted, he.constructed_eq, he.latch_eq]
  simp [hcons, hlatch]

/-- A completed Step clears the flag where the word at pc is 99, and keeps it elsewhere (R25, R120). -/
theorem step_next_running {s t : State} (h : step s = .next t) :
    (s.mem.read (s.pc : Int) = some 99 → t.running = false) ∧
      (s.mem.read (s.pc : Int) ≠ some 99 → t.running = s.running) := by
  obtain ⟨v, i, hv, hd, he⟩ := step_next_effect h
  rw [hv]
  refine ⟨fun h99 => ?_, fun h99 => he.running_of_ne_halt ?_⟩
  · obtain rfl : Instr.halt = i := Except.ok.inj ((decode_eq_halt_iff.2 (Option.some.inj h99)).symm.trans hd)
    exact he.running_of_halt
  · rintro rfl
    exact h99 (congrArg some (decode_eq_halt_iff.1 hd))

/-- Settles O40: a Step is taken with the flag set, so it ends Halted exactly where it clears the flag. -/
theorem runningIsClearedByHaltAlone : Obligations.RunningIsClearedByHaltAlone := by
  refine ⟨fun s t h => ?_, fun s f h => ?_, fun c tx s h htx => ?_, fun c program input s h => ?_, fun c s h => ?_⟩
  · obtain ⟨hclear, hkeep⟩ := step_next_running h
    obtain ⟨hs, -⟩ := stepAt_eq_next (step_eq_stepAt s ▸ h)
    obtain ⟨-, -, hrun⟩ := status_eq_running.1 hs
    refine ⟨(step_next_status_eq_halted_iff h).trans ⟨fun hf => ?_, hclear⟩, hkeep⟩
    by_contra hne
    have hset : t.running = true := (hkeep hne).trans hrun
    rw [hset] at hf
    cases hf
  · obtain ⟨r, hr⟩ := step_fault_after h
    rw [hr, raise_running]
  · exact perform_of_not_running c (by rw [h]; decide) htx
  · rw [perform_construct_of_admitted s h]
    rfl
  · exact ⟨if_pos h, fun _ => rfl⟩

/-! ## The queues -/

/-- Settles O41: only the words of Input and of Output decode to an instruction that changes its queue. -/
theorem queuesChangeOnlyByTheirInstruction : Obligations.QueuesChangeOnlyByTheirInstruction := by
  refine ⟨fun s t h => ?_, fun s f h => ?_⟩
  · obtain ⟨v, i, hv, hd, he⟩ := step_next_effect h
    rw [hv]
    refine ⟨he.inq_cases.imp_right ?_, he.outq_cases.imp_right ?_⟩
    · rintro ⟨m1, x, rfl, hq⟩
      exact ⟨congrArg some (eq_three_of_decode_inp hd), x, hq⟩
    · rintro ⟨m1, a, rfl, hq⟩
      exact ⟨(eq_four_or_of_decode_out hd).imp (congrArg some) (congrArg some), a, hq⟩
  · obtain ⟨r, hr⟩ := step_fault_after h
    rw [hr]
    exact ⟨raise_inq s r, raise_outq s r⟩

/-! ## The log is never read -/

/-- `b` is what `a`, an answer from `s`, becomes where the log of `s` is `o`: the same words are appended, the same fault
is raised, or the request is turned away alike. -/
def SameButLog (s : State) (o : List Word) (a b : Answer) : Prop :=
  match a with
  | .next t => ∃ e, t.outq = s.outq ++ e ∧ b = .next { t with outq := o ++ e }
  | .fault f => ∃ r g, FaultsWith s r f ∧ b = .fault g ∧ FaultsWith { s with outq := o } r g
  | .refused why => b = .refused why

theorem takeFault_sameButLog (s : State) (o : List Word) (r : FaultReason) :
    SameButLog s o (takeFault r s) (takeFault r { s with outq := o }) := ⟨r, _, rfl, rfl, rfl⟩

/-- An answer that leaves the log alone. -/
theorem next_sameButLog {s t : State} (o : List Word) (h : t.outq = s.outq) :
    SameButLog s o (.next t) (.next { t with outq := o }) :=
  ⟨[], by rw [h, List.append_nil], by rw [List.append_nil]⟩

theorem commitArith_sameButLog (c : Config) (x d : Int) (w : Nat) (s : State) (o : List Word) :
    SameButLog s o (commitArith c x d w s) (commitArith c x d w { s with outq := o }) := by
  unfold commitArith
  cases overflowAt c x with
  | none => exact takeFault_sameButLog s o .numericOverflow
  | some res => exact next_sameButLog o rfl

theorem execAddAt_sameButLog (c : Config) (m1 m2 m3 : Mode) (s : State) (o : List Word) :
    SameButLog s o (execAddAt c m1 m2 m3 s) (execAddAt c m1 m2 m3 { s with outq := o }) := by
  have hres (w : Word) : resolveF3 m1 m2 m3 w { s with outq := o } = resolveF3 m1 m2 m3 w s := rfl
  unfold execAddAt
  rw [hres]
  cases resolveF3 m1 m2 m3 (encode (.add m1 m2 m3)) s with
  | error r => exact takeFault_sameButLog s o r
  | ok x => exact commitArith_sameButLog c (x.1 + x.2.1) x.2.2 _ s o

theorem execMulAt_sameButLog (c : Config) (m1 m2 m3 : Mode) (s : State) (o : List Word) :
    SameButLog s o (execMulAt c m1 m2 m3 s) (execMulAt c m1 m2 m3 { s with outq := o }) := by
  have hres (w : Word) : resolveF3 m1 m2 m3 w { s with outq := o } = resolveF3 m1 m2 m3 w s := rfl
  unfold execMulAt
  rw [hres]
  cases resolveF3 m1 m2 m3 (encode (.mul m1 m2 m3)) s with
  | error r => exact takeFault_sameButLog s o r
  | ok x => exact commitArith_sameButLog c (x.1 * x.2.1) x.2.2 _ s o

theorem execInp_sameButLog (m1 : Mode) (s : State) (o : List Word) :
    SameButLog s o (execInp m1 s) (execInp m1 { s with outq := o }) := by
  have hres (w : Word) : resolveF1W m1 w { s with outq := o } = resolveF1W m1 w s := rfl
  unfold execInp
  rw [hres]
  cases resolveF1W m1 (encode (.inp m1)) s with
  | error r => exact takeFault_sameButLog s o r
  | ok d =>
    obtain ⟨constructed, mem, pc, running, inq, outq, latch⟩ := s
    cases inq with
    | nil => exact takeFault_sameButLog _ o .inputStarvation
    | cons x rest => exact next_sameButLog o rfl

/-- Output appends its operand, whatever the log holds. -/
theorem execOut_sameButLog (m1 : Mode) (s : State) (o : List Word) :
    SameButLog s o (execOut m1 s) (execOut m1 { s with outq := o }) := by
  have hres : resolveF1R m1 { s with outq := o } = resolveF1R m1 s := rfl
  unfold execOut
  rw [hres]
  cases resolveF1R m1 s with
  | error r => exact takeFault_sameButLog s o r
  | ok a => exact ⟨[a], rfl, rfl⟩

theorem execAt_sameButLog (c : Config) (i : Instr) (s : State) (o : List Word) :
    SameButLog s o (execAt c i s) (execAt c i { s with outq := o }) := by
  cases i with
  | add m1 m2 m3 => exact execAddAt_sameButLog c m1 m2 m3 s o
  | mul m1 m2 m3 => exact execMulAt_sameButLog c m1 m2 m3 s o
  | inp m1 => exact execInp_sameButLog m1 s o
  | out m1 => exact execOut_sameButLog m1 s o
  | halt => exact next_sameButLog o rfl

theorem stepAt_sameButLog (c : Config) (s : State) (o : List Word) :
    SameButLog s o (stepAt c s) (stepAt c { s with outq := o }) := by
  have hen : State.notEnabled { s with outq := o } = s.notEnabled := rfl
  have hfetch : fetchWith c.highDigitPolicy { s with outq := o } = fetchWith c.highDigitPolicy s := rfl
  unfold stepAt
  rw [hen, hfetch]
  cases s.notEnabled with
  | some why => exact rfl
  | none =>
    cases fetchWith c.highDigitPolicy s with
    | error r => exact takeFault_sameButLog s o r
    | ok i => exact execAt_sameButLog c i s o

/-- Settles O42: `SameButLog` of a Step, read off for each of its three answers. -/
theorem outputLogIsNeverRead : Obligations.OutputLogIsNeverRead := by
  intro s o
  have hstep : SameButLog s o (step s) (step { s with outq := o }) := by
    rw [step_eq_stepAt, step_eq_stepAt]
    exact stepAt_sameButLog Config.spec s o
  refine ⟨fun t h => ?_, fun f h => ?_, fun why h => ?_⟩ <;> rw [h] at hstep <;> exact hstep

end Sys2Proof.Machine

/-!
A canonical memory is determined by what it reads (20_memory.md R40, R42): its list of cells has exactly the addresses
that read as a word other than the blank one, in rising order.
-/

namespace Sys2Proof.Machine

theorem getCell_of_mem {cs : List (Nat × Word)} {x : Nat × Word} (hs : cs.Pairwise fun x y => x.1 < y.1)
    (hx : x ∈ cs) : getCell cs x.1 = x.2 := by
  induction cs with
  | nil => cases hx
  | cons c cs ih =>
    obtain ⟨above, hs⟩ := List.pairwise_cons.1 hs
    rcases List.mem_cons.1 hx with rfl | hx
    · exact if_pos rfl
    · exact (if_neg (Nat.ne_of_gt (above x hx))).trans (ih hs hx)

/-- A word other than the blank one is read only where a cell is listed. -/
theorem exists_mem_of_getCell_ne_blank {cs : List (Nat × Word)} {a : Nat} (h : getCell cs a ≠ blankWord) :
    ∃ x ∈ cs, x.1 = a := by
  by_contra! hno
  exact h (getCell_eq_blank hno)

/-- The cells that a canonical memory lists, by what it reads. -/
theorem mem_cells_iff_read {m : Memory} (hm : m.wf) (x : Nat × Word) :
    x ∈ m.cells ↔ m.read x.1 = some x.2 ∧ x.2 ≠ blankWord := by
  obtain ⟨hsorted, hlisted⟩ := hm
  rw [read_eq_some, Int.toNat_natCast]
  constructor
  · intro hx
    obtain ⟨hlt, hne⟩ := hlisted x hx
    exact ⟨⟨⟨Int.natCast_nonneg _, Int.ofNat_lt.2 hlt⟩, getCell_of_mem hsorted hx⟩, hne⟩
  · rintro ⟨⟨-, hget⟩, hne⟩
    obtain ⟨y, hy, hyx⟩ := exists_mem_of_getCell_ne_blank (hget ▸ hne)
    have hval : y.2 = x.2 := by rw [← getCell_of_mem hsorted hy, hyx, hget]
    exact Prod.ext hyx hval ▸ hy

/-- Settles O38: both lists hold the same cells in the same strict order. -/
theorem canonicalMemoriesAreEqual : Obligations.CanonicalMemoriesAreEqual := by
  intro m m' hm hm' hlen hread
  have hcells : m.cells = m'.cells :=
    List.Pairwise.eq_of_mem_iff (r := Prod.fst ⁻¹'o (· < ·)) hm.1 hm'.1 fun x => by
      rw [mem_cells_iff_read hm, mem_cells_iff_read hm', hread]
  exact congrArg₂ Memory.mk hlen hcells

end Sys2Proof.Machine

/-!
Instructions whose parameters resolve: what each answers (41_arithmetic.md R100, R101; 42_io.md R110), and what the very
next Step runs.
-/

namespace Sys2Proof.Machine

/-! ## Completion -/

theorem overflowAt_of_isWord {c : Config} {x : Int} (h : IsWord c.wordBits x) : overflowAt c x = some x := if_pos h

theorem execAddAt_of_resolved {c : Config} {m1 m2 : Mode} {s : State} {a b : Word} {d : Int}
    (ha : s.Operand m1 1 a) (hb : s.Operand m2 2 b) (hd : s.Target 3 d) :
    execAddAt c m1 m2 .position s = commitArith c (a + b) d 4 s := by
  rw [execAddAt, resolveF3_eq_ok.2 ⟨rfl, ha, hb, hd⟩]
  rfl

theorem execMulAt_of_resolved {c : Config} {m1 m2 : Mode} {s : State} {a b : Word} {d : Int}
    (ha : s.Operand m1 1 a) (hb : s.Operand m2 2 b) (hd : s.Target 3 d) :
    execMulAt c m1 m2 .position s = commitArith c (a * b) d 4 s := by
  rw [execMulAt, resolveF3_eq_ok.2 ⟨rfl, ha, hb, hd⟩]
  rfl

theorem commitArith_of_overflowAt {c : Config} {x : Int} {res : Word} (h : overflowAt c x = some res) (d : Int)
    (w : Nat) (s : State) : commitArith c x d w s = .next ((s.writeCell d res).advance w) := by
  rw [commitArith, h]

theorem exec_add_of_isWord {m1 m2 : Mode} {s : State} {a b : Word} {d : Int} (ha : s.Operand m1 1 a)
    (hb : s.Operand m2 2 b) (hd : s.Target 3 d) (hword : IsWord 64 (a + b)) :
    exec (.add m1 m2 .position) s = .next ((s.writeCell d (a + b)).advance 4) :=
  (execAddAt_of_resolved ha hb hd).trans (commitArith_of_overflowAt (overflowAt_of_isWord hword) d 4 s)

theorem exec_mul_of_isWord {m1 m2 : Mode} {s : State} {a b : Word} {d : Int} (ha : s.Operand m1 1 a)
    (hb : s.Operand m2 2 b) (hd : s.Target 3 d) (hword : IsWord 64 (a * b)) :
    exec (.mul m1 m2 .position) s = .next ((s.writeCell d (a * b)).advance 4) :=
  (execMulAt_of_resolved ha hb hd).trans (commitArith_of_overflowAt (overflowAt_of_isWord hword) d 4 s)

theorem exec_inp_of_inq {s : State} {x : Word} {rest : List Word} {d : Int} (hd : s.Target 1 d)
    (hq : s.inq = x :: rest) : exec (.inp .position) s = .next ((s.popInput.writeCell d x).advance 2) := by
  rw [exec, execInp, resolveF1W_eq_ok.2 ⟨rfl, hd⟩, hq]
  rfl

/-! ## One cell for all three parameters -/

/-- Settles O22: the operands resolve to the content before the write, and the result is read back after it. -/
theorem operandsAreReadBeforeTheWrite : Obligations.OperandsAreReadBeforeTheWrite := by
  intro s d x hm hslot hx
  have hd : s.mem.InRange d := inRange_of_read hx
  have h1 : s.Operand .position 1 x := ⟨d, hslot 1 (by decide), hx⟩
  have h2 : s.Operand .position 2 x := ⟨d, hslot 2 (by decide), hx⟩
  have h3 : s.Target 3 d := ⟨hslot 3 (by decide), hd⟩
  exact ⟨fun hword => ⟨_, exec_add_of_isWord h1 h2 h3 hword, read_write_same _ hm hd⟩,
    fun hword => ⟨_, exec_mul_of_isWord h1 h2 h3 hword, read_write_same _ hm hd⟩⟩

/-! ## A word stored where the next Step fetches -/

/-- A Step in status Running runs the instruction that the word at pc decodes to (40_step_cycle.md R80 to R82). -/
theorem step_of_decode {s : State} {v : Word} {i : Instr} (hs : s.status = .running)
    (hv : s.mem.read (s.pc : Int) = some v) (hi : decode v = .ok i) : step s = exec i s := by
  have hfetch : fetch s = .ok i := fetchWith_eq_ok.2 ⟨v, hv, hi⟩
  rw [step, notEnabled_eq_none.2 hs, hfetch]

/-- After WRITEBACK into the cell that ADVANCE reaches, the Step runs the word written (20_memory.md R52). -/
theorem step_after_writeback {s : State} {k w : Nat} {v : Word} {i : Instr} (hm : s.mem.wf) (hs : s.status = .running)
    (hd : s.Target k (slotAddress w s)) (hi : decode v = .ok i) :
    step ((s.writeCell (slotAddress w s) v).advance w) = exec i ((s.writeCell (slotAddress w s) v).advance w) :=
  step_of_decode hs (read_write_same v hm (target_inRange hd)) hi

/-- Settles O23: each of the three completes with a WRITEBACK into the cell that its ADVANCE reaches. -/
theorem storedWordIsFetchedNext : Obligations.StoredWordIsFetchedNext := by
  intro s m1 m2 a b rest i hm hs
  refine ⟨fun ha hb hd => ⟨fun hword hi => ?_, fun hword hi => ?_⟩, fun hd hq hi => ?_⟩
  · exact ⟨_, exec_add_of_isWord ha hb hd hword, step_after_writeback hm hs hd hi⟩
  · exact ⟨_, exec_mul_of_isWord ha hb hd hword, step_after_writeback hm hs hd hi⟩
  · exact ⟨_, exec_inp_of_inq hd hq, step_after_writeback (s := s.popInput) hm hs hd hi⟩

end Sys2Proof.Machine

/-!
The legal instruction words, and the lines of a listing read back from their cells (30_encoding.md R71, R74).
-/

namespace Sys2Proof

/-- The encoding fits in the opcode and the mode fields: nothing stands above them (R74). -/
theorem encode_mem_range (i : Instr) : 0 ≤ encode i ∧ encode i < 10 ^ (i.width + 1) := by
  cases i with
  | add m1 m2 m3 => cases m1 <;> cases m2 <;> cases m3 <;> decide
  | mul m1 m2 m3 => cases m1 <;> cases m2 <;> cases m3 <;> decide
  | inp m1 => cases m1 <;> decide
  | out m1 => cases m1 <;> decide
  | halt => decide

theorem decodeWith_encode (p : HighDigitPolicy) {i : Instr} (h : i.wf = true) : decodeWith p (encode i) = .ok i := by
  obtain ⟨hnonneg, hlt⟩ := encode_mem_range i
  exact decodeWith_eq_ok_iff_encode.2
    ⟨hnonneg, ⟨h, Int.emod_eq_of_lt hnonneg hlt⟩, fun _ => Int.ediv_eq_zero_of_lt hnonneg hlt⟩

/-- Settles O2: the encoding holds the fields that DECODE reads, and no higher digit. -/
theorem encodedWordDecodesBack : Obligations.EncodedWordDecodesBack := fun p _ => decodeWith_encode p

theorem decode_eq_ok_iff {v : Word} {i : Instr} : decode v = .ok i ↔ i.wf = true ∧ v = encode i :=
  ⟨decode_eq_ok_encode, fun ⟨hwf, hv⟩ => hv ▸ decodeWith_encode _ hwf⟩

/-! ## The twelve legal words -/

/-- The well-formed instructions (R71: there are twelve); `mem_legalInstrs` ties the list to `Instr.wf`. -/
def legalInstrs : List Instr :=
  [.add .position .position .position, .add .immediate .position .position,
    .add .position .immediate .position, .add .immediate .immediate .position,
    .mul .position .position .position, .mul .immediate .position .position,
    .mul .position .immediate .position, .mul .immediate .immediate .position,
    .inp .position, .out .position, .out .immediate, .halt]

theorem mem_legalInstrs (i : Instr) : i ∈ legalInstrs ↔ i.wf = true := by
  cases i with
  | add m1 m2 m3 => cases m1 <;> cases m2 <;> cases m3 <;> decide
  | mul m1 m2 m3 => cases m1 <;> cases m2 <;> cases m3 <;> decide
  | inp m1 => cases m1 <;> decide
  | out m1 => cases m1 <;> decide
  | halt => decide

theorem map_encode_legalInstrs :
    legalInstrs.map encode = [(1 : Int), 101, 1001, 1101, 2, 102, 1002, 1102, 3, 4, 104, 99] := by decide

/-- Settles O3: the words that decode are the encodings of `legalInstrs`. -/
theorem legalWordsAreExactlyTheEncodings : Obligations.LegalWordsAreExactlyTheEncodings := by
  refine ⟨fun v i => decode_eq_ok_iff, fun v => ?_⟩
  rw [← map_encode_legalInstrs, List.mem_map]
  refine exists_congr fun i => ?_
  rw [decode_eq_ok_iff, mem_legalInstrs, eq_comm (a := v)]

/-- Settles O1: DECODE evaluated on each word. -/
theorem writtenOutWordsDecode : Obligations.WrittenOutWordsDecode := by
  unfold Obligations.WrittenOutWordsDecode
  decide

/-! ## Lines and their cells -/

@[simp] theorem readOperand_mode_raw (a : ReadOperand) : readOperand a.mode a.raw = a := by cases a <;> rfl

@[simp] theorem mode_readOperand (m : Mode) (r : Word) : (readOperand m r).mode = m := by cases m <;> rfl

@[simp] theorem raw_readOperand (m : Mode) (r : Word) : (readOperand m r).raw = r := by cases m <;> rfl

theorem Mode.legalForWrite_iff {m : Mode} : m.legalForWrite = true ↔ m = .position := by cases m <;> decide

theorem AsmLine.instr_wf (l : AsmLine) : l.instr.wf = true := by cases l <;> rfl

theorem lineOf_instr_raws (l : AsmLine) (rest : List Word) : lineOf l.instr (l.raws ++ rest) = some (l, rest) := by
  cases l <;> simp [AsmLine.instr, AsmLine.raws, lineOf]

/-- The line that a well-formed instruction and the cells after it give has that instruction and takes those cells. -/
theorem lineOf_eq_some {i : Instr} {cells rest : List Word} {l : AsmLine} (hwf : i.wf = true)
    (h : lineOf i cells = some (l, rest)) : i = l.instr ∧ cells = l.raws ++ rest := by
  unfold lineOf at h
  split at h <;> cases h
  case h_1 | h_2 | h_3 => simpa [AsmLine.instr, AsmLine.raws] using Mode.legalForWrite_iff.1 hwf
  case h_4 => simp [AsmLine.instr, AsmLine.raws]
  case h_5 => exact ⟨rfl, rfl⟩

theorem disassemble_assemble (l : AsmLine) (rest : List Word) : disassemble (assemble l ++ rest) = some (l, rest) := by
  have hdec : decode (encode l.instr) = .ok l.instr := decodeWith_encode _ l.instr_wf
  rw [assemble, List.cons_append, disassemble, hdec]
  exact lineOf_instr_raws l rest

/-- The front of the cells that disassemble to a line is the encoding of its instruction and then its raw parameters. -/
theorem eq_assemble_of_disassemble {cells rest : List Word} {l : AsmLine} (h : disassemble cells = some (l, rest)) :
    cells = assemble l ++ rest := by
  cases cells with
  | nil => cases h
  | cons v tail =>
    cases hdec : decode v with
    | error e => simp [disassemble, hdec] at h
    | ok i =>
      obtain ⟨hwf, rfl⟩ := decode_eq_ok_encode hdec
      obtain ⟨rfl, rfl⟩ := lineOf_eq_some hwf (by simpa [disassemble, hdec] using h)
      rfl

/-- Settles O6: `disassemble_assemble` one way, `eq_assemble_of_disassemble` the other. -/
theorem assembledCellsReadBack : Obligations.AssembledCellsReadBack :=
  ⟨disassemble_assemble, fun _ _ _ => eq_assemble_of_disassemble⟩

end Sys2Proof

/-!
The words that DECODE rejects: which rejection each has (30_encoding.md R61, R69 to R72).
-/

namespace Sys2Proof

/-- The catalog has the opcodes 1, 2, 3, 4 and 99 alone (R68, R69). -/
theorem catalog_eq_none {n : Nat} (h : n ∉ [1, 2, 3, 4, 99]) : catalog n = none := by
  rw [Option.eq_none_iff_forall_ne_some]
  intro row hrow
  obtain ⟨o, rfl, -⟩ := catalog_eq_some_iff.1 hrow
  cases o <;> exact h (by decide)

theorem decodeWith_of_neg (p : HighDigitPolicy) {v : Word} (h : v < 0) : decodeWith p v = .error .unknownOpcode :=
  if_pos h

theorem decodeWith_of_catalog_eq_none (p : HighDigitPolicy) {n : Nat} (h : catalog (opcodeOf n) = none) :
    decodeWith p n = .error .unknownOpcode := by
  rw [decodeWith, if_neg (Int.not_lt.2 (Int.natCast_nonneg n)), Int.toNat_natCast, h]

/-! ## The tests of a catalog row, in their order -/

section Row

variable {p : HighDigitPolicy} {n : Nat} {row : CatalogRow}

/-- The tests of R72 on a word whose opcode is in the catalog. -/
theorem decodeWith_of_catalog (h : catalog (opcodeOf n) = some row) :
    decodeWith p n =
      if row.hasInvalidMode n then .error .invalidMode
      else if p = .fault ∧ row.highDigits n ≠ 0 then .error .reservedDigits
      else if row.hasImmediateWrite n then .error .writeImmediate
      else .ok (row.op.instr fun k => modeOfDigit (digit (k + 1) n)) := by
  rw [decodeWith, if_neg (Int.not_lt.2 (Int.natCast_nonneg n)), Int.toNat_natCast, h]

theorem decodeWith_eq_invalidMode_iff (h : catalog (opcodeOf n) = some row) :
    decodeWith p n = .error .invalidMode ↔ row.hasInvalidMode n = true := by
  rw [decodeWith_of_catalog h]
  split_ifs <;> simp_all

theorem decodeWith_eq_reservedDigits_iff (h : catalog (opcodeOf n) = some row) :
    decodeWith p n = .error .reservedDigits ↔
      row.hasInvalidMode n = false ∧ p = .fault ∧ row.highDigits n ≠ 0 := by
  rw [decodeWith_of_catalog h]
  split_ifs <;> simp_all

theorem decodeWith_eq_writeImmediate_iff (h : catalog (opcodeOf n) = some row) :
    decodeWith p n = .error .writeImmediate ↔
      row.hasInvalidMode n = false ∧ (p = .fault → row.highDigits n = 0) ∧ row.hasImmediateWrite n = true := by
  rw [decodeWith_of_catalog h]
  split_ifs <;> simp_all

end Row

/-! The tests of a row of each format (R64) as conditions on the digits. -/

theorem hasInvalidMode_F3_iff {o : Op} {n : Nat} :
    (CatalogRow.mk o [.read, .read, .write]).hasInvalidMode n = true ↔
      2 ≤ digit 2 n ∨ 2 ≤ digit 3 n ∨ 2 ≤ digit 4 n := by
  simp [CatalogRow.hasInvalidMode, CatalogRow.params]

theorem hasInvalidMode_F1_iff {o : Op} {k : ParamKind} {n : Nat} :
    (CatalogRow.mk o [k]).hasInvalidMode n = true ↔ 2 ≤ digit 2 n := by
  simp [CatalogRow.hasInvalidMode, CatalogRow.params]

theorem hasImmediateWrite_F3_iff {o : Op} {n : Nat} :
    (CatalogRow.mk o [.read, .read, .write]).hasImmediateWrite n = true ↔ digit 4 n = 1 := by
  simp [CatalogRow.hasImmediateWrite, CatalogRow.params]

theorem hasImmediateWrite_F1W_iff {o : Op} {n : Nat} :
    (CatalogRow.mk o [.write]).hasImmediateWrite n = true ↔ digit 2 n = 1 := by
  simp [CatalogRow.hasImmediateWrite, CatalogRow.params]

theorem highDigits_F3 (o : Op) (n : Nat) :
    (CatalogRow.mk o [.read, .read, .write]).highDigits n = n / 100000 := by simp [CatalogRow.highDigits]

theorem highDigits_F1 (o : Op) (k : ParamKind) (n : Nat) : (CatalogRow.mk o [k]).highDigits n = n / 1000 := by
  simp [CatalogRow.highDigits]

/-- WRITE_IMMEDIATE needs a write parameter (R70 b). -/
theorem hasImmediateWrite_eq_false {row : CatalogRow} (h : .write ∉ row.kinds) (n : Nat) :
    row.hasImmediateWrite n = false := by
  rw [← Bool.not_eq_true, CatalogRow.hasImmediateWrite, List.any_eq_true]
  rintro ⟨⟨kind, k⟩, hmem, htest⟩
  obtain ⟨hkind, -⟩ := Bool.and_eq_true_iff.1 htest
  obtain rfl : kind = .write := eq_of_beq hkind
  exact h (List.fst_mem_of_mem_zipIdx hmem)

theorem catalog_opcodeOf {n : Nat} (o : Op) (h : n % 100 = o.opcode) : catalog (opcodeOf n) = some o.row :=
  catalog_eq_some_iff.2 ⟨o, h, rfl⟩

section Format

variable {p : HighDigitPolicy} {o : Op} {n : Nat}

/-- Format F3 (Add and Multiply): three mode fields, the third of a write parameter. -/
theorem rejections_F3 (h : catalog (opcodeOf n) = some ⟨o, [.read, .read, .write]⟩) :
    (decodeWith p n = .error .invalidMode ↔ 2 ≤ digit 2 n ∨ 2 ≤ digit 3 n ∨ 2 ≤ digit 4 n) ∧
    (decodeWith p n = .error .reservedDigits ↔
      digit 2 n ≤ 1 ∧ digit 3 n ≤ 1 ∧ digit 4 n ≤ 1 ∧ p = .fault ∧ n / 100000 ≠ 0) ∧
    (decodeWith p n = .error .writeImmediate ↔
      digit 2 n ≤ 1 ∧ digit 3 n ≤ 1 ∧ digit 4 n = 1 ∧ (p = .fault → n / 100000 = 0)) := by
  have hmodes : (CatalogRow.mk o [.read, .read, .write]).hasInvalidMode n = false ↔
      digit 2 n ≤ 1 ∧ digit 3 n ≤ 1 ∧ digit 4 n ≤ 1 := by
    rw [← Bool.not_eq_true, hasInvalidMode_F3_iff]
    omega
  rw [decodeWith_eq_invalidMode_iff h, decodeWith_eq_reservedDigits_iff h, decodeWith_eq_writeImmediate_iff h,
    hmodes, highDigits_F3, hasInvalidMode_F3_iff, hasImmediateWrite_F3_iff]
  refine ⟨Iff.rfl, by simp only [and_assoc], ?_⟩
  constructor
  · rintro ⟨⟨h2, h3, -⟩, hempty, h4⟩
    exact ⟨h2, h3, h4, hempty⟩
  · rintro ⟨h2, h3, h4, hempty⟩
    exact ⟨⟨h2, h3, h4.le⟩, hempty, h4⟩

/-- Formats F1W and F1R (Input and Output): the first two tests see one mode field of either kind. -/
theorem rejections_F1 {k : ParamKind} (h : catalog (opcodeOf n) = some ⟨o, [k]⟩) :
    (decodeWith p n = .error .invalidMode ↔ 2 ≤ digit 2 n) ∧
    (decodeWith p n = .error .reservedDigits ↔ digit 2 n ≤ 1 ∧ p = .fault ∧ n / 1000 ≠ 0) := by
  have hmode : (CatalogRow.mk o [k]).hasInvalidMode n = false ↔ digit 2 n ≤ 1 := by
    rw [← Bool.not_eq_true, hasInvalidMode_F1_iff]
    omega
  rw [decodeWith_eq_invalidMode_iff h, decodeWith_eq_reservedDigits_iff h, hmode, highDigits_F1, hasInvalidMode_F1_iff]
  exact ⟨Iff.rfl, Iff.rfl⟩

/-- Format F1W (Input): the one mode field is that of a write parameter. -/
theorem writeImmediate_F1W (h : catalog (opcodeOf n) = some ⟨o, [.write]⟩) :
    decodeWith p n = .error .writeImmediate ↔ digit 2 n = 1 ∧ (p = .fault → n / 1000 = 0) := by
  rw [decodeWith_eq_writeImmediate_iff h, highDigits_F1, ← Bool.not_eq_true, hasInvalidMode_F1_iff,
    hasImmediateWrite_F1W_iff]
  constructor
  · rintro ⟨-, hempty, h2⟩
    exact ⟨h2, hempty⟩
  · rintro ⟨h2, hempty⟩
    exact ⟨by omega, hempty, h2⟩

theorem decodeWith_ne_writeImmediate {row : CatalogRow} (h : catalog (opcodeOf n) = some row)
    (hkinds : .write ∉ row.kinds) : decodeWith p n ≠ .error .writeImmediate := by
  rw [Ne, decodeWith_eq_writeImmediate_iff h, hasImmediateWrite_eq_false hkinds]
  exact fun ⟨_, _, hwrite⟩ => nomatch hwrite

end Format

/-- Settles O5: the tests of each operation's format, by opcode. -/
theorem rejectionsComeInOrder : Obligations.RejectionsComeInOrder := by
  intro p v
  refine ⟨fun h => ?_, fun h => ?_, fun h => ?_, fun h => ?_⟩
  · obtain h | h := h
    · exact rejections_F3 (catalog_opcodeOf .add h)
    · exact rejections_F3 (catalog_opcodeOf .mul h)
  · have hrow := catalog_opcodeOf .inp h
    obtain ⟨hmode, hhigh⟩ := rejections_F1 (p := p) hrow
    exact ⟨hmode, hhigh, writeImmediate_F1W hrow⟩
  · have hrow := catalog_opcodeOf .out h
    obtain ⟨hmode, hhigh⟩ := rejections_F1 (p := p) hrow
    exact ⟨hmode, hhigh, decodeWith_ne_writeImmediate hrow (by decide)⟩
  · have hrow := catalog_opcodeOf .halt h
    have hmode : Op.halt.row.hasInvalidMode v = false := rfl
    have hhigh : Op.halt.row.highDigits v = v / 100 := by simp [Op.row, CatalogRow.highDigits]
    refine ⟨?_, ?_, decodeWith_ne_writeImmediate hrow (by decide)⟩
    · rw [Ne, decodeWith_eq_invalidMode_iff hrow, hmode]
      exact Bool.false_ne_true
    · rw [decodeWith_eq_reservedDigits_iff hrow, hmode, hhigh]
      exact and_iff_right rfl

end Sys2Proof

namespace Sys2Proof.Machine

/-! ## The Step that fetches a rejected word -/

theorem stepAt_of_decode_error {c : Config} {s : State} {v : Word} {e : Reject} (hs : s.status = .running)
    (hv : s.mem.read (s.pc : Int) = some v) (he : decodeWith c.highDigitPolicy v = .error e) :
    stepAt c s = takeFault (rejectReason e v) s := by
  have hfetch : fetchWith c.highDigitPolicy s = .error (rejectReason e v) :=
    fetchWith_eq_error.2 (.inr ⟨v, e, hv, he, rfl⟩)
  rw [stepAt, notEnabled_eq_none.2 hs, hfetch]

/-- Settles O9: the opcode is in no catalog row, whatever the policies. -/
theorem unknownOpcodeFaults : Obligations.UnknownOpcodeFaults := by
  refine ⟨fun c s v hs hv hnonneg hop => ?_, by decide, by decide⟩
  have hreject (p : HighDigitPolicy) : decodeWith p v = .error .unknownOpcode := by
    lift v to Nat using hnonneg
    refine decodeWith_of_catalog_eq_none p (catalog_eq_none fun hmem => hop ?_)
    exact_mod_cast List.mem_map_of_mem (f := Nat.cast) hmem
  exact ⟨stepAt_of_decode_error hs hv (hreject _),
    (step_eq_stepAt s).trans (stepAt_of_decode_error hs hv (hreject _))⟩

/-- Settles O10: the sign is tested before the opcode. -/
theorem negativeWordFaults : Obligations.NegativeWordFaults := by
  intro s v hs hv hneg
  exact (step_eq_stepAt s).trans (stepAt_of_decode_error hs hv (decodeWith_of_neg _ hneg))

/-! ## An instruction that DECODE cannot give -/

theorem resolveF3_immediate (m1 m2 : Mode) (w : Word) (s : State) :
    resolveF3 m1 m2 .immediate w s = .error (.writeImmediate w) := rfl

theorem resolveF1W_immediate (w : Word) (s : State) : resolveF1W .immediate w s = .error (.writeImmediate w) := rfl

/-- The write mode is checked before any slot is fetched (log 10). -/
theorem exec_of_not_wf {i : Instr} (s : State) (h : i.wf = false) :
    exec i s = takeFault (.writeImmediate (encode i)) s := by
  cases i with
  | add m1 m2 m3 =>
    cases m3 with
    | position => cases h
    | immediate => rw [exec, execAdd, execAddAt, resolveF3_immediate]
  | mul m1 m2 m3 =>
    cases m3 with
    | position => cases h
    | immediate => rw [exec, execMul, execMulAt, resolveF3_immediate]
  | inp m1 =>
    cases m1 with
    | position => cases h
    | immediate => rw [exec, execInp, resolveF1W_immediate]
  | out m1 => cases h
  | halt => cases h

/-- Settles O31: the fault of `exec_of_not_wf`, written out. -/
theorem illFormedInstructionFaults : Obligations.IllFormedInstructionFaults := fun _ s h => exec_of_not_wf s h

end Sys2Proof.Machine

/-!
FETCH and DECODE of a Step, and a Step as all or nothing (40_step_cycle.md R80 to R83, R90; 60_exceptions.md R157, R161,
R162).
-/

namespace Sys2Proof

/-- DECODE gives legal modes only, under either policy for high digits (30_encoding.md R70 b). -/
theorem decodeWith_wf {p : HighDigitPolicy} {v : Word} {i : Instr} (h : decodeWith p v = .ok i) : i.wf = true := by
  obtain ⟨-, ⟨hwf, -⟩, -⟩ := decodeWith_eq_ok_iff_encode.1 h
  exact hwf

end Sys2Proof

namespace Sys2Proof.Machine

/-- Settles O7: `decodeWith_wf` and `step_of_decode`. -/
theorem stepRunsTheDecodedInstruction : Obligations.StepRunsTheDecodedInstruction :=
  fun _ _ _ hs hv hi => ⟨decodeWith_wf hi, step_of_decode hs hv hi⟩

theorem stepAt_of_len_le_pc {c : Config} {s : State} (hs : s.status = .running) (hpc : s.mem.len ≤ s.pc) :
    stepAt c s = takeFault (.fetchOob s.pc) s := by
  have hnone : s.mem.read (s.pc : Int) = none := read_eq_none.2 fun hr => absurd hr.2 (by omega)
  have hfetch : fetchWith c.highDigitPolicy s = .error (.fetchOob s.pc) := fetchWith_eq_error.2 (.inl ⟨hnone, rfl⟩)
  rw [stepAt, notEnabled_eq_none.2 hs, hfetch]

/-- Settles O8: the fault of `stepAt_of_len_le_pc`, written out. -/
theorem fetchOutsideMemoryFaults : Obligations.FetchOutsideMemoryFaults :=
  fun s hs hpc => (step_eq_stepAt s).trans (stepAt_of_len_le_pc hs hpc)

@[simp] theorem rejectReason_info (e : Reject) (v : Word) : (rejectReason e v).info = v := by cases e <;> rfl

/-- Settles O11: the fault is taken for `rejectReason e v`, and fault entry writes the latch alone. -/
theorem decodeFailureChangesOnlyTheLatch : Obligations.DecodeFailureChangesOnlyTheLatch := by
  intro s v e hs hv he
  obtain ⟨hcons, -, -⟩ := status_eq_running.1 hs
  refine ⟨_, (step_eq_stepAt s).trans (stepAt_of_decode_error hs hv he), ?_⟩
  rw [fault_after]
  refine ⟨rfl, rfl, rfl, rfl, rfl, rfl, rfl, rejectReason_info e v, raise_status _ hcons, ?_⟩
  cases e <;> rfl

/-! ## All or nothing -/

/-- An instruction whose word and parameters are all fetched ends within memory (10_state.md R24). -/
theorem execAt_next_end_le_len {c : Config} {i : Instr} {s t : State} (hpc : s.pc < s.mem.len)
    (h : execAt c i s = .next t) : s.pc + i.width ≤ s.mem.len := by
  cases i with
  | add m1 m2 m3 =>
    obtain ⟨a, b, d, res, -, -, -, hd, -, -⟩ := execAddAt_eq_next h
    exact target_slot_lt hd
  | mul m1 m2 m3 =>
    obtain ⟨a, b, d, res, -, -, -, hd, -, -⟩ := execMulAt_eq_next h
    exact target_slot_lt hd
  | inp m1 =>
    obtain ⟨d, x, rest, -, hd, -, -⟩ := execInp_eq_next h
    exact target_slot_lt hd
  | out m1 =>
    obtain ⟨a, ha, -⟩ := execOut_eq_next h
    exact operand_slot_lt ha
  | halt => exact hpc

theorem FaultsWith.after_eq {s : State} {r : FaultReason} {f : Fault} (h : FaultsWith s r f) : f.after = s.raise r :=
  (congrArg Fault.after h).trans (fault_after r _)

theorem execAt_ne_refused (c : Config) (i : Instr) (s : State) (why : Refusal) : execAt c i s ≠ .refused why := by
  obtain ⟨r, e⟩ | ⟨t, e⟩ := execAt_cases c i s <;> rw [e]
  · exact takeFault_ne_refused r s why
  · exact nofun

/-- A Step in status Running is performed (44_host_operations.md R132). -/
theorem stepAt_ne_refused_of_running {c : Config} {s : State} (hs : s.status = .running) (why : Refusal) :
    stepAt c s ≠ .refused why := by
  obtain ⟨hne, -⟩ | ⟨-, ⟨r, -, e⟩ | ⟨i, -, e⟩⟩ := stepAt_cases c s
  · exact absurd hs hne
  · exact e ▸ takeFault_ne_refused r s why
  · exact e ▸ execAt_ne_refused c i s why

/-- Settles O12: in status Running the Step is not refused, so it answers one of the other two outcomes. -/
theorem stepIsAllOrNothing : Obligations.StepIsAllOrNothing := by
  intro c s hs
  cases h : stepAt c s with
  | next t =>
    obtain ⟨-, i, hi, he⟩ := stepAt_eq_next h
    obtain ⟨v, hv, hd⟩ := fetchWith_eq_ok.1 hi
    have heff : Effect s i t := execAt_next_effect he
    have hend : s.pc + i.width ≤ s.mem.len := execAt_next_end_le_len (Int.ofNat_lt.1 (inRange_of_read hv).2) he
    exact .inl ⟨t, v, i, rfl, hv, hd, he, heff.pc_eq, heff.pc_eq.trans_le hend, heff.latch_eq⟩
  | fault f =>
    obtain ⟨-, r, hr⟩ := stepAt_eq_fault h
    obtain ⟨hcons, -, -⟩ := status_eq_running.1 hs
    exact .inr ⟨f, r, rfl, hr, hr.after_eq ▸ raise_status r hcons⟩
  | refused why => exact absurd h (stepAt_ne_refused_of_running hs why)

end Sys2Proof.Machine

/-!
Faults of RESOLVE: what a parameter that does not resolve raises (40_step_cycle.md R84, R85, R87), and that the first such
parameter decides the fault of the instruction (R86).
-/

namespace Sys2Proof.Machine

/-! ## One parameter -/

section Parameter

variable {i : Nat} {s : State} {r : Word}

theorem rawParam_of_len_le (h : s.mem.len ≤ s.pc + i) : rawParam i s = .error (.slotOob (s.pc + i)) :=
  rawParam_eq_error.2 ⟨fun hr => absurd hr.2 (by unfold slotAddress; omega), rfl⟩

theorem readParam_of_len_le (m : Mode) (h : s.mem.len ≤ s.pc + i) :
    readParam m i s = .error (.slotOob (s.pc + i)) := by rw [readParam, rawParam_of_len_le h]

theorem writeParam_of_len_le (h : s.mem.len ≤ s.pc + i) : writeParam i s = .error (.slotOob (s.pc + i)) := by
  rw [writeParam, rawParam_of_len_le h]

theorem readParam_position_of_not_inRange (hr : s.mem.read (slotAddress i s) = some r) (h : ¬ s.mem.InRange r) :
    readParam .position i s = .error (.operandOob r) := by
  rw [readParam, rawParam_eq_ok.2 hr]
  simp only [read_eq_none.2 h]

theorem writeParam_of_not_inRange (hr : s.mem.read (slotAddress i s) = some r) (h : ¬ s.mem.InRange r) :
    writeParam i s = .error (.targetOob r) := by
  rw [writeParam, rawParam_eq_ok.2 hr]
  exact if_neg h

end Parameter

/-! ## The instruction: its first parameter that does not resolve -/

section FirstFault

variable {m1 m2 : Mode} {s : State} {a b : Word} {e : FaultReason} {i : Instr}

theorem exec_of_resolveF3_error {m3 : Mode} (h : ∀ w, resolveF3 m1 m2 m3 w s = .error e)
    (hi : i ∈ [Instr.add m1 m2 m3, .mul m1 m2 m3]) : exec i s = takeFault e s := by
  obtain rfl | rfl := List.mem_pair.1 hi
  · rw [exec, execAdd, execAddAt, h]
  · rw [exec, execMul, execMulAt, h]

theorem exec_arith_of_readParam_one_error (h : readParam m1 1 s = .error e)
    (hi : i ∈ [Instr.add m1 m2 .position, .mul m1 m2 .position]) : exec i s = takeFault e s :=
  exec_of_resolveF3_error (fun w => by simp only [resolveF3, writeMode, h]) hi

theorem exec_arith_of_readParam_two_error (ha : s.Operand m1 1 a) (h : readParam m2 2 s = .error e)
    (hi : i ∈ [Instr.add m1 m2 .position, .mul m1 m2 .position]) : exec i s = takeFault e s :=
  exec_of_resolveF3_error (fun w => by simp only [resolveF3, writeMode, readParam_eq_ok.2 ha, h]) hi

theorem exec_arith_of_writeParam_error (ha : s.Operand m1 1 a) (hb : s.Operand m2 2 b) (h : writeParam 3 s = .error e)
    (hi : i ∈ [Instr.add m1 m2 .position, .mul m1 m2 .position]) : exec i s = takeFault e s :=
  exec_of_resolveF3_error
    (fun w => by simp only [resolveF3, writeMode, readParam_eq_ok.2 ha, readParam_eq_ok.2 hb, h]) hi

theorem exec_inp_of_writeParam_error (h : writeParam 1 s = .error e) : exec (.inp .position) s = takeFault e s := by
  simp only [exec, execInp, resolveF1W, writeMode, h]

theorem exec_out_of_readParam_error (h : readParam m1 1 s = .error e) : exec (.out m1) s = takeFault e s := by
  rw [exec, execOut, resolveF1R, h]

end FirstFault

/-- Settles O27: the parameters in order, each with its slot past the end. -/
theorem missingSlotFaults : Obligations.MissingSlotFaults := by
  refine ⟨fun _ _ => rfl, fun _ _ _ => rawParam_eq_ok.2, fun m1 m2 s a b => ⟨fun hlen => ?_, fun ha hlen i hi => ?_,
    fun ha hb hlen i hi => ?_⟩⟩
  · have harith := fun i => exec_arith_of_readParam_one_error (m2 := m2) (i := i) (readParam_of_len_le m1 hlen)
    have hinp := exec_inp_of_writeParam_error (writeParam_of_len_le hlen)
    have hout := exec_out_of_readParam_error (readParam_of_len_le m1 hlen)
    exact List.forall_mem_append.2 ⟨harith, List.forall_mem_cons.2 ⟨hinp, List.forall_mem_singleton.2 hout⟩⟩
  · exact exec_arith_of_readParam_two_error ha (readParam_of_len_le m2 hlen) hi
  · exact exec_arith_of_writeParam_error ha hb (writeParam_of_len_le hlen) hi

/-- Settles O28: each read parameter on its own, then as the first one that does not resolve. -/
theorem readParametersResolve : Obligations.ReadParametersResolve := by
  refine ⟨fun i s r hr => ⟨?_, fun v hv => ?_, readParam_position_of_not_inRange hr⟩,
    fun m1 m2 s a r hbad => ⟨fun hr => ?_, fun ha hr i hi => ?_⟩⟩
  · exact readParam_eq_ok.2 ⟨r, hr, rfl⟩
  · exact readParam_eq_ok.2 ⟨r, hr, hv⟩
  · have hread := readParam_position_of_not_inRange hr hbad
    have harith := fun i => exec_arith_of_readParam_one_error (m2 := m2) (i := i) hread
    exact List.forall_mem_append.2 ⟨harith, List.forall_mem_singleton.2 (exec_out_of_readParam_error hread)⟩
  · exact exec_arith_of_readParam_two_error ha (readParam_position_of_not_inRange hr hbad) hi

/-- Settles O29: the destination is resolved last of the parameters, and the queue and the result play no part in it. -/
theorem writeParametersResolve : Obligations.WriteParametersResolve := by
  refine ⟨fun i s r hr => ⟨fun hd => writeParam_eq_ok.2 ⟨hr, hd⟩, writeParam_of_not_inRange hr⟩,
    fun m1 m2 s a b r hbad => ⟨fun ha hb hr i hi => ?_, fun hr => ?_⟩, fun _ _ _ => decodeWith_wf⟩
  · exact exec_arith_of_writeParam_error ha hb (writeParam_of_not_inRange hr hbad) hi
  · exact exec_inp_of_writeParam_error (writeParam_of_not_inRange hr hbad)

end Sys2Proof.Machine

/-!
Frames: what an instruction leaves as it was (40_step_cycle.md R89, 60_exceptions.md R162).
-/

namespace Sys2Proof.Machine

/-- An instruction that faults changes nothing but the latch (R162). -/
theorem exec_fault_after {i : Instr} {s : State} {f : Fault} (h : exec i s = .fault f) :
    f.after = { s with latch := f.after.latch } := by
  obtain ⟨r, hr⟩ := execAt_eq_fault (exec_eq_execAt i s ▸ h)
  rw [hr.after_eq]
  rfl

/-- The address of WRITEBACK in Add and Multiply is the one that `storeAddress` gives. -/
theorem exec_arith_eq_next {m1 m2 m3 : Mode} {i : Instr} {s t : State}
    (hi : i ∈ [Instr.add m1 m2 m3, .mul m1 m2 m3]) (h : exec i s = .next t) :
    ∃ d res, storeAddress i s = some d ∧ t = (s.writeCell d res).advance 4 := by
  obtain rfl | rfl := List.mem_pair.1 hi
  · obtain ⟨a, b, d, res, -, -, -, hd, -, ht⟩ := execAddAt_eq_next h
    exact ⟨d, res, congrArg Except.toOption (writeParam_eq_ok.2 hd), ht⟩
  · obtain ⟨a, b, d, res, -, -, -, hd, -, ht⟩ := execMulAt_eq_next h
    exact ⟨d, res, congrArg Except.toOption (writeParam_eq_ok.2 hd), ht⟩

/-- WRITEBACK to the address an instruction stores to leaves the length and every other cell. -/
theorem write_storeAddress_frame {i : Instr} {s : State} {d : Int} (v : Word) (h : storeAddress i s = some d) :
    (s.mem.write d v).len = s.mem.len ∧ storeAddress i s ≠ none ∧
      ∀ d', storeAddress i s = some d' → ∀ x, x ≠ d' → (s.mem.write d v).read x = s.mem.read x := by
  refine ⟨write_len _ _ _, Option.ne_none_iff_exists'.2 ⟨d, h⟩, fun d' h' x hx => ?_⟩
  obtain rfl : d = d' := Option.some.inj (h.symm.trans h')
  exact read_write_ne s.mem v hx

/-- Settles O33: WRITEBACK and ADVANCE write no field but memory and pc. -/
theorem arithmeticFrame : Obligations.ArithmeticFrame := by
  refine fun m1 m2 m3 s i hi => ⟨fun t h => ?_, fun f => exec_fault_after⟩
  obtain ⟨d, res, hd, rfl⟩ := exec_arith_eq_next hi h
  exact ⟨rfl, rfl, rfl, rfl, rfl, write_storeAddress_frame res hd⟩

/-- Settles O34: the entry stored is the first of the queue, and its removal touches no other field. -/
theorem inputFrame : Obligations.InputFrame := by
  refine fun m1 s => ⟨fun t h => ?_, fun f => exec_fault_after⟩
  obtain ⟨d, x, rest, -, hd, hq, rfl⟩ := execInp_eq_next h
  have hstore : storeAddress (.inp m1) s = some d := congrArg Except.toOption (writeParam_eq_ok.2 hd)
  obtain ⟨hlen, hframe⟩ := write_storeAddress_frame x hstore
  exact ⟨rfl, rfl, rfl, rfl, hlen, ⟨x, by simp [hq]⟩, hframe⟩

/-- Settles O35: the operand goes to the end of the log and nowhere else. -/
theorem outputFrame : Obligations.OutputFrame := by
  refine fun m1 s => ⟨fun t h => ?_, fun f => exec_fault_after⟩
  obtain ⟨a, -, rfl⟩ := execOut_eq_next h
  exact ⟨rfl, rfl, rfl, rfl, rfl, fun _ => rfl, a, rfl⟩

end Sys2Proof.Machine

/-!
The word range, and what the overflow policies make of an exact result (00_scope.md R4, R5; 41_arithmetic.md R103, R104).
-/

namespace Sys2Proof

theorem wordMax_nonneg (W : Nat) : 0 ≤ wordMax W := by
  have : (0 : Int) < 2 ^ (W - 1) := by positivity
  unfold wordMax
  omega

/-- The range has one word more below 0 than above (R4). -/
theorem wordMin_eq (W : Nat) : wordMin W = -wordMax W - 1 := by
  unfold wordMin wordMax
  ring

/-- The range holds 2^W words (R4). -/
theorem two_pow_eq {W : Nat} (hW : 1 ≤ W) : (2 : Int) ^ W = wordMax W - wordMin W + 1 := by
  obtain ⟨n, rfl⟩ := Nat.exists_eq_add_of_le' hW
  simp only [wordMin, wordMax, Nat.add_sub_cancel]
  ring

theorem wordMax_mono {W W' : Nat} (h : W ≤ W') : wordMax W ≤ wordMax W' := by
  have : (2 : Int) ^ (W - 1) ≤ 2 ^ (W' - 1) := pow_le_pow_right₀ (by decide) (Nat.sub_le_sub_right h 1)
  unfold wordMax
  omega

/-- A word of one width is a word of every wider one. -/
theorem IsWord.mono {W W' : Nat} {v : Int} (h : W ≤ W') (hv : IsWord W v) : IsWord W' v := by
  have hmax := wordMax_mono h
  have hmin := wordMin_eq W
  have hmin' := wordMin_eq W'
  obtain ⟨hlo, hhi⟩ := hv
  constructor <;> omega

theorem isWord_add_of_nonpos_of_nonneg {W : Nat} {a b : Int} (ha : IsWord W a) (hb : IsWord W b) (ha0 : a ≤ 0)
    (hb0 : 0 ≤ b) : IsWord W (a + b) :=
  ⟨ha.1.trans (le_add_of_nonneg_right hb0), (add_le_of_nonpos_left ha0).trans hb.2⟩

/-- WORD_MIN is the one word whose negation is none (R104). -/
theorem isWord_neg_iff {W : Nat} {a : Int} (ha : IsWord W a) : IsWord W (-a) ↔ a ≠ wordMin W := by
  have hmin := wordMin_eq W
  obtain ⟨hlo, hhi⟩ := ha
  constructor
  · rintro ⟨-, hneg⟩
    omega
  · intro hne
    constructor <;> omega

/-- Words congruent modulo 2^W are equal: the range is too narrow for two of them (R103). -/
theorem IsWord.eq_of_dvd_sub {W : Nat} {v w : Int} (hW : 1 ≤ W) (hv : IsWord W v) (hw : IsWord W w)
    (h : (2 ^ W : Int) ∣ v - w) : v = w := by
  have hwidth := two_pow_eq hW
  obtain ⟨hvlo, hvhi⟩ := hv
  obtain ⟨hwlo, hwhi⟩ := hw
  have hlt : |v - w| < 2 ^ W := abs_lt.2 ⟨by omega, by omega⟩
  exact Int.sub_eq_zero.1 (Int.eq_zero_of_abs_lt_dvd h hlt)

/-- Settles O26: a bound for each clause, from the two ends of the range. -/
theorem arithmeticStaysInRange : Obligations.ArithmeticStaysInRange := by
  intro W a b _ ha hb
  have hmax := wordMax_nonneg W
  have hmin := wordMin_eq W
  refine ⟨fun ha0 hb0 => ?_, ?_, ?_, ?_, fun h => ?_, fun h => ?_, ?_⟩
  · have hsum := isWord_add_of_nonpos_of_nonneg ha hb ha0 hb0
    exact ⟨hsum, add_comm a b ▸ hsum⟩
  · rw [mul_zero]
    constructor <;> omega
  · rwa [mul_one]
  · rw [mul_neg_one]
    exact isWord_neg_iff ha
  · exact absurd h.2 (by omega)
  · exact absurd h.1 (by omega)
  · constructor <;> omega

end Sys2Proof

namespace Sys2Proof.Machine

/-! ## Overflow(t) -/

theorem wrapTo_dvd_sub (W : Nat) (t : Int) : (2 ^ W : Int) ∣ wrapTo W t - t := by
  have h : (2 ^ W : Int) ∣ (t - wordMin W) % 2 ^ W - (t - wordMin W) := (Int.mod_modEq _ _).symm.dvd
  rwa [sub_sub_eq_add_sub] at h

theorem saturateTo_of_wordMax_lt {W : Nat} {t : Int} (h : wordMax W < t) : saturateTo W t = wordMax W := if_pos h

theorem saturateTo_of_lt_wordMin {W : Nat} {t : Int} (h : t < wordMin W) : saturateTo W t = wordMin W :=
  if_neg (h.trans_le (wordMin_le_wordMax W)).not_gt

section OutOfRange

variable {c : Config} {t : Int}

theorem overflowAt_fault (h : ¬ IsWord c.wordBits t) (hp : c.overflowPolicy = .fault) : overflowAt c t = none := by
  rw [overflowAt, if_neg h, hp]

theorem overflowAt_wrap (h : ¬ IsWord c.wordBits t) (hp : c.overflowPolicy = .wrap) :
    overflowAt c t = some (wrapTo c.wordBits t) := by
  rw [overflowAt, if_neg h, hp]

theorem overflowAt_saturate (h : ¬ IsWord c.wordBits t) (hp : c.overflowPolicy = .saturate) :
    overflowAt c t = some (saturateTo c.wordBits t) := by
  rw [overflowAt, if_neg h, hp]

end OutOfRange

/-- Two words congruent to `t` modulo 2^W would be congruent to each other (R103). -/
theorem wrapTo_unique {W : Nat} {t r : Int} (hW : 1 ≤ W) (hr : IsWord W r) (h : (2 ^ W : Int) ∣ r - t) :
    r = wrapTo W t := by
  have hdiff := dvd_sub h (wrapTo_dvd_sub W t)
  rw [sub_sub_sub_cancel_right] at hdiff
  exact hr.eq_of_dvd_sub hW (wrapTo_isWord W t) hdiff

/-- Settles O24: a lemma for each policy; under `wrap` the word is unique because the range holds 2^W words. -/
theorem overflowFollowsThePolicy : Obligations.OverflowFollowsThePolicy := by
  intro c t hW
  refine ⟨overflowAt_of_isWord, overflowAt_fault, fun h hp => ?_, fun h hp => ⟨fun hlt => ?_, fun hlt => ?_⟩⟩
  · exact ⟨_, overflowAt_wrap h hp, wrapTo_isWord _ _, wrapTo_dvd_sub _ _, fun _ => wrapTo_unique hW⟩
  · rw [overflowAt_saturate h hp, saturateTo_of_wordMax_lt hlt]
  · rw [overflowAt_saturate h hp, saturateTo_of_lt_wordMin hlt]

/-- Under OVERFLOW_POLICY = fault a result is written only where it is a word, and unchanged (R103). -/
theorem overflowAt_fault_eq_some {c : Config} {t : Int} {res : Word} (hp : c.overflowPolicy = .fault)
    (h : overflowAt c t = some res) : IsWord c.wordBits t ∧ res = t := by
  by_cases ht : IsWord c.wordBits t
  · rw [overflowAt_of_isWord ht] at h
    exact ⟨ht, (Option.some.inj h).symm⟩
  · rw [overflowAt_fault ht hp] at h
    cases h

/-! ## Completion -/

/-- Settles O21: the operands and the destination resolve, and the commit writes what Overflow(t) gives. -/
theorem arithmeticCompletesUnderEveryPolicy : Obligations.ArithmeticCompletesUnderEveryPolicy := by
  intro c m1 m2 s a b d res ha hb hd
  exact ⟨fun h => (execAddAt_of_resolved ha hb hd).trans (commitArith_of_overflowAt h d 4 s),
    fun h => (execMulAt_of_resolved ha hb hd).trans (commitArith_of_overflowAt h d 4 s)⟩

/-- Settles O16: `exec_add_of_isWord`, its two updates written out. -/
theorem addCompletes : Obligations.AddCompletes := fun _ _ _ _ _ _ => exec_add_of_isWord

/-- Settles O17: `exec_mul_of_isWord`, its two updates written out. -/
theorem multiplyCompletes : Obligations.MultiplyCompletes := fun _ _ _ _ _ _ => exec_mul_of_isWord

end Sys2Proof.Machine

/-!
Two machines, the first with both policies `fault` and a word no wider than the second's: what the first completes the
second completes alike, so a run of the first that ends Halted is a run of the second (00_scope.md R5, R7;
92_eei_decisions.md D1, D2, D6).
-/

namespace Sys2Proof.Machine

/-- A word that decodes with no high digits decodes to the same instruction where they are not examined (R71). -/
theorem decodeWith_of_fault {v : Word} {i : Instr} (p : HighDigitPolicy) (h : decodeWith .fault v = .ok i) :
    decodeWith p v = .ok i := by
  obtain ⟨hwf, rfl⟩ := decode_eq_ok_encode h
  exact decodeWith_encode p hwf

theorem fetchWith_of_fault {s : State} {i : Instr} (p : HighDigitPolicy) (h : fetchWith .fault s = .ok i) :
    fetchWith p s = .ok i := by
  obtain ⟨v, hv, hd⟩ := fetchWith_eq_ok.1 h
  exact fetchWith_eq_ok.2 ⟨v, hv, decodeWith_of_fault p hd⟩

theorem stepAt_of_fetch {c : Config} {s : State} {i : Instr} (hs : s.status = .running)
    (hi : fetchWith c.highDigitPolicy s = .ok i) : stepAt c s = execAt c i s := by
  rw [stepAt, notEnabled_eq_none.2 hs, hi]

/-! ## The loop of Run -/

theorem runFuel_of_not_running (f : State → Answer) (n : Nat) {s : State} (h : s.status ≠ .running) :
    runFuel f n s = s := by
  cases n with
  | zero => rfl
  | succ n => exact if_neg h

theorem runFuel_succ_of_running (f : State → Answer) (n : Nat) {s : State} (h : s.status = .running) :
    runFuel f (n + 1) s = runFuel f n (stepTransaction f s) := if_pos h

theorem runFuel_succ_of_next {c : Config} {s t : State} (n : Nat) (h : stepAt c s = .next t) :
    runFuel (stepAt c) (n + 1) s = runFuel (stepAt c) n t := by
  obtain ⟨hs, -⟩ := stepAt_eq_next h
  rw [runFuel_succ_of_running _ n hs, stepTransaction, h]
  rfl

/-- A Step that faults leaves the machine Faulted (60_exceptions.md R161). -/
theorem stepAt_fault_status {c : Config} {s : State} {f : Fault} (h : stepAt c s = .fault f) :
    (stepTransaction (stepAt c) s).status = .faulted := by
  obtain ⟨hs, r, hr⟩ := stepAt_eq_fault h
  obtain ⟨hcons, -, -⟩ := status_eq_running.1 hs
  have htx : stepTransaction (stepAt c) s = s.raise r := by
    rw [stepTransaction, h]
    exact hr.after_eq
  exact htx ▸ raise_status r hcons

/-- Every Step of a run that ends Halted completes: a fault would have ended it Faulted (R134, R136). -/
theorem stepAt_next_of_runFuel_final {c : Config} {n : Nat} {s : State} (hs : s.status = .running)
    (h : (runFuel (stepAt c) (n + 1) s).Final) : ∃ t, stepAt c s = .next t := by
  cases hstep : stepAt c s with
  | next t => exact ⟨t, rfl⟩
  | fault f =>
    have hfaulted := stepAt_fault_status hstep
    have hend : (stepTransaction (stepAt c) s).status ≠ .running := by
      rw [hfaulted]
      decide
    rw [runFuel_succ_of_running _ n hs, runFuel_of_not_running _ n hend, State.Final, hfaulted] at h
    cases h
  | refused why => exact absurd hstep (stepAt_ne_refused_of_running hs why)

/-! ## What completes under the fault policies completes on every machine at least as wide -/

section Simulation

variable {c c' : Config} {s t : State}

theorem overflowAt_of_fault {x : Int} {res : Word} (hp : c.overflowPolicy = .fault)
    (hW : c.wordBits ≤ c'.wordBits) (h : overflowAt c x = some res) : overflowAt c' x = some res := by
  obtain ⟨hword, rfl⟩ := overflowAt_fault_eq_some hp h
  exact overflowAt_of_isWord (hword.mono hW)

theorem execAt_next_of_fault {i : Instr} (hp : c.overflowPolicy = .fault) (hW : c.wordBits ≤ c'.wordBits)
    (h : execAt c i s = .next t) : execAt c' i s = .next t := by
  cases i with
  | add m1 m2 m3 =>
    obtain ⟨a, b, d, res, rfl, ha, hb, hd, hres, rfl⟩ := execAddAt_eq_next h
    exact (execAddAt_of_resolved ha hb hd).trans (commitArith_of_overflowAt (overflowAt_of_fault hp hW hres) d 4 s)
  | mul m1 m2 m3 =>
    obtain ⟨a, b, d, res, rfl, ha, hb, hd, hres, rfl⟩ := execMulAt_eq_next h
    exact (execMulAt_of_resolved ha hb hd).trans (commitArith_of_overflowAt (overflowAt_of_fault hp hW hres) d 4 s)
  | inp m1 => exact h
  | out m1 => exact h
  | halt => exact h

theorem stepAt_next_of_fault (hp : c.overflowPolicy = .fault) (hh : c.highDigitPolicy = .fault)
    (hW : c.wordBits ≤ c'.wordBits) (h : stepAt c s = .next t) : stepAt c' s = .next t := by
  obtain ⟨hs, i, hi, he⟩ := stepAt_eq_next h
  rw [hh] at hi
  rw [stepAt_of_fetch hs (fetchWith_of_fault _ hi)]
  exact execAt_next_of_fault hp hW he

theorem runFuel_eq_of_fault (hp : c.overflowPolicy = .fault) (hh : c.highDigitPolicy = .fault)
    (hW : c.wordBits ≤ c'.wordBits) (n : Nat) (h : (runFuel (stepAt c) n s).Final) :
    runFuel (stepAt c') n s = runFuel (stepAt c) n s := by
  induction n generalizing s with
  | zero => rfl
  | succ n ih =>
    by_cases hs : s.status = .running
    · obtain ⟨t, ht⟩ := stepAt_next_of_runFuel_final hs h
      rw [runFuel_succ_of_next n ht] at h ⊢
      rw [runFuel_succ_of_next n (stepAt_next_of_fault hp hh hW ht)]
      exact ih h
    · rw [runFuel_of_not_running _ _ hs, runFuel_of_not_running _ _ hs]

end Simulation

/-- Settles O57: both machines have the same bound on Steps, and take the same Steps within it. -/
theorem haltedResultHoldsForEveryPolicy : Obligations.HaltedResultHoldsForEveryPolicy :=
  fun _ _ s hp hh hW h => runFuel_eq_of_fault hp hh hW (stepBound s) h

end Sys2Proof.Machine

/-!
Input and Output: what each answers when its parameter resolves, how many entries a run takes from the queue and adds to
the log, and that entries behind those a run reads do not matter (42_io.md R110 to R112).
-/

namespace Sys2Proof

/-- The number of queue entries a completed instruction takes (10_state.md R30). -/
def Instr.inputs : Instr → Nat
  | .inp _ => 1
  | _ => 0

/-- The number of log entries a completed instruction adds (10_state.md R31). -/
def Instr.outputs : Instr → Nat
  | .out _ => 1
  | _ => 0

theorem eq_of_decode_encode {i j : Instr} (hwf : j.wf = true) (h : decode (encode j) = .ok i) : j = i :=
  Except.ok.inj ((decodeWith_encode .fault hwf).symm.trans h)

theorem inputs_of_decode {v : Word} {i : Instr} (h : decode v = .ok i) :
    (if v ∈ [3] then 1 else 0) = i.inputs := by
  split
  next hv =>
    obtain rfl := List.mem_singleton.1 hv
    obtain rfl : Instr.inp .position = i := eq_of_decode_encode rfl h
    rfl
  next hv =>
    cases i with
    | inp m1 => exact absurd (List.mem_singleton.2 (eq_three_of_decode_inp h)) hv
    | _ => rfl

theorem outputs_of_decode {v : Word} {i : Instr} (h : decode v = .ok i) :
    (if v ∈ [4, 104] then 1 else 0) = i.outputs := by
  split
  next hv =>
    obtain rfl | rfl := List.mem_pair.1 hv
    · obtain rfl : Instr.out .position = i := eq_of_decode_encode rfl h
      rfl
    · obtain rfl : Instr.out .immediate = i := eq_of_decode_encode rfl h
      rfl
  next hv =>
    cases i with
    | out m1 => exact absurd (List.mem_pair.2 (eq_four_or_of_decode_out h)) hv
    | _ => rfl

end Sys2Proof

namespace Sys2Proof.Machine

/-! ## Completion -/

theorem exec_out_of_operand {m1 : Mode} {s : State} {a : Word} (ha : s.Operand m1 1 a) :
    exec (.out m1) s = .next ((s.appendOutput a).advance 2) := by
  rw [exec, execOut, resolveF1R_eq_ok.2 ha]
  rfl

/-- Settles O18: `exec_inp_of_inq`, where the queue that is left is the tail of the old one. -/
theorem inputCompletes : Obligations.InputCompletes := by
  intro s x rest d hd hq
  obtain rfl : s.inq.tail = rest := congrArg List.tail hq
  exact exec_inp_of_inq hd hq

/-- Settles O19: `exec_out_of_operand`, its two updates written out. -/
theorem outputCompletes : Obligations.OutputCompletes := fun _ _ _ => exec_out_of_operand

/-! ## The queues over any number of Steps -/

/-- From `s` to `t`, `k` entries have left the front of the queue and `j` have joined the end of the log. -/
def QueuesMoved (s t : State) (k j : Nat) : Prop :=
  k ≤ s.inq.length ∧ t.inq = s.inq.drop k ∧ t.outq.length = s.outq.length + j ∧ s.outq <+: t.outq

theorem QueuesMoved.of_eq {s t : State} (hin : t.inq = s.inq) (hout : t.outq = s.outq) : QueuesMoved s t 0 0 :=
  ⟨Nat.zero_le _, hin, congrArg List.length hout, hout ▸ List.prefix_rfl⟩

theorem QueuesMoved.trans {s t u : State} {k k' j j' : Nat} (h : QueuesMoved s t k j) (h' : QueuesMoved t u k' j') :
    QueuesMoved s u (k + k') (j + j') := by
  obtain ⟨hk, hin, hlen, hpre⟩ := h
  obtain ⟨hk', hin', hlen', hpre'⟩ := h'
  rw [hin, List.length_drop] at hk'
  refine ⟨by omega, ?_, by omega, hpre.trans hpre'⟩
  rw [hin', hin, List.drop_drop]

theorem Effect.queuesMoved {s t : State} {i : Instr} (h : Effect s i t) : QueuesMoved s t i.inputs i.outputs := by
  cases h with
  | inp m1 d hq => exact ⟨by simp [hq, Instr.inputs], List.drop_one.symm, rfl, List.prefix_rfl⟩
  | out m1 a => exact ⟨Nat.zero_le _, rfl, List.length_append, List.prefix_append _ _⟩
  | _ => exact .of_eq rfl rfl

/-- A completed Step counts where it executes one of the words. -/
theorem countSteps_succ_of_next {ws : List Word} {n : Nat} {s t : State} {v : Word} (h : step s = .next t)
    (hv : s.mem.read (s.pc : Int) = some v) :
    countSteps ws (n + 1) s = (if v ∈ ws then 1 else 0) + countSteps ws n t := by
  simp [countSteps, h, hv]

theorem countSteps_succ_of_fault {ws : List Word} {n : Nat} {s : State} {f : Fault} (h : step s = .fault f) :
    countSteps ws (n + 1) s = 0 := by
  rw [countSteps, h]

theorem countSteps_of_not_running {ws : List Word} {s : State} (n : Nat) (h : s.status ≠ .running) :
    countSteps ws n s = 0 := by
  cases n with
  | zero => rfl
  | succ n =>
    obtain ⟨why, hwhy⟩ := stepAt_refused (c := Config.spec) h
    rw [countSteps, step_eq_stepAt, hwhy]

/-- A fault ends the run in the state of fault entry (R134, 60_exceptions.md R161). -/
theorem runFuel_succ_of_fault {c : Config} {s : State} {f : Fault} (n : Nat) (h : stepAt c s = .fault f) :
    runFuel (stepAt c) (n + 1) s = f.after := by
  obtain ⟨hs, -⟩ := stepAt_eq_fault h
  have hend : (stepTransaction (stepAt c) s).status ≠ .running := by
    rw [stepAt_fault_status h]
    decide
  rw [runFuel_succ_of_running _ n hs, runFuel_of_not_running _ n hend, stepTransaction, h]
  rfl

theorem step_eq_stepAt_spec : step = stepAt Config.spec := funext step_eq_stepAt

theorem run_eq_runAt (s : State) : run s = runAt Config.spec s := by
  rw [run, step_eq_stepAt_spec, runAt]

/-- A completed Step moves the queues as its instruction does, and the run ends where a Step does not complete. -/
theorem runFuel_queuesMoved (n : Nat) (s : State) :
    QueuesMoved s (runFuel step n s) (countSteps [3] n s) (countSteps [4, 104] n s) := by
  rw [step_eq_stepAt_spec]
  induction n generalizing s with
  | zero => exact .of_eq rfl rfl
  | succ n ih =>
    cases hstep : stepAt Config.spec s with
    | next t =>
      have hnext : step s = .next t := (step_eq_stepAt s).trans hstep
      obtain ⟨v, i, hv, hd, he⟩ := step_next_effect hnext
      rw [runFuel_succ_of_next n hstep, countSteps_succ_of_next hnext hv, countSteps_succ_of_next hnext hv,
        inputs_of_decode hd, outputs_of_decode hd]
      exact he.queuesMoved.trans (ih t)
    | fault f =>
      have hfault : step s = .fault f := (step_eq_stepAt s).trans hstep
      obtain ⟨r, hr⟩ := stepAt_fault_after hstep
      rw [runFuel_succ_of_fault n hstep, countSteps_succ_of_fault hfault, countSteps_succ_of_fault hfault, hr]
      exact .of_eq rfl rfl
    | refused why =>
      have hs : s.status ≠ .running := fun hs => stepAt_ne_refused_of_running hs why hstep
      rw [runFuel_of_not_running _ _ hs, countSteps_of_not_running _ hs, countSteps_of_not_running _ hs]
      exact .of_eq rfl rfl

/-- Settles O43: `QueuesMoved`, written out, of the state after `n` Steps. -/
theorem queuesCountTheirInstructions : Obligations.QueuesCountTheirInstructions := runFuel_queuesMoved

/-! ## More input behind the queue -/

/-- The machine with more entries behind those in its input queue. -/
def State.appendInput (s : State) (extra : List Word) : State := { s with inq := s.inq ++ extra }

section AppendInput

variable {c : Config} {s t : State}

/-- Only Input looks at the queue, and it completes on the first entry, whatever stands behind (R110). -/
theorem execAt_next_appendInput {i : Instr} (extra : List Word) (h : execAt c i s = .next t) :
    execAt c i (s.appendInput extra) = .next (t.appendInput extra) := by
  cases i with
  | add m1 m2 m3 =>
    obtain ⟨a, b, d, res, rfl, ha, hb, hd, hres, rfl⟩ := execAddAt_eq_next h
    exact (execAddAt_of_resolved (s := s.appendInput extra) ha hb hd).trans (commitArith_of_overflowAt hres d 4 _)
  | mul m1 m2 m3 =>
    obtain ⟨a, b, d, res, rfl, ha, hb, hd, hres, rfl⟩ := execMulAt_eq_next h
    exact (execMulAt_of_resolved (s := s.appendInput extra) ha hb hd).trans (commitArith_of_overflowAt hres d 4 _)
  | inp m1 =>
    obtain ⟨d, x, rest, rfl, hd, hq, -⟩ := execInp_eq_next h
    obtain rfl := Host.Outcome.next.inj ((inputCompletes s x rest d hd hq).symm.trans h)
    exact inputCompletes (s.appendInput extra) x (rest ++ extra) d hd (congrArg (· ++ extra) hq)
  | out m1 =>
    obtain ⟨a, ha, rfl⟩ := execOut_eq_next h
    exact exec_out_of_operand (s := s.appendInput extra) ha
  | halt =>
    cases h
    rfl

theorem stepAt_next_appendInput (extra : List Word) (h : stepAt c s = .next t) :
    stepAt c (s.appendInput extra) = .next (t.appendInput extra) := by
  obtain ⟨hs, i, hi, he⟩ := stepAt_eq_next h
  exact (stepAt_of_fetch (s := s.appendInput extra) hs hi).trans (execAt_next_appendInput extra he)

/-- A run that ends Halted takes the same Steps with more input: each of them completes. -/
theorem runFuel_appendInput (extra : List Word) (n : Nat) (h : (runFuel (stepAt c) n s).Final) :
    runFuel (stepAt c) n (s.appendInput extra) = (runFuel (stepAt c) n s).appendInput extra := by
  induction n generalizing s with
  | zero => rfl
  | succ n ih =>
    by_cases hs : s.status = .running
    · obtain ⟨t, ht⟩ := stepAt_next_of_runFuel_final hs h
      rw [runFuel_succ_of_next n ht] at h ⊢
      rw [runFuel_succ_of_next n (stepAt_next_appendInput extra ht)]
      exact ih h
    · have hs' : (s.appendInput extra).status ≠ .running := hs
      rw [runFuel_of_not_running _ _ hs, runFuel_of_not_running _ _ hs']

end AppendInput

/-- Settles O58: both runs have the same bound on Steps, since it depends on the length of memory alone. -/
theorem unreadInputDoesNotMatter : Obligations.UnreadInputDoesNotMatter := by
  intro s extra h
  rw [run_eq_runAt] at h
  rw [run_eq_runAt, run_eq_runAt]
  exact runFuel_appendInput extra (stepBound s) h

end Sys2Proof.Machine

/-!
Control: what Halt does and leaves, that pc only grows, and that every Run ends (43_control.md R120 to R122,
44_host_operations.md R135).
-/

namespace Sys2Proof

/-- Every instruction has a word of its own (30_encoding.md R68). -/
theorem Instr.width_pos (i : Instr) : 0 < i.width := by cases i <;> simp

/-- Every instruction but Halt has a parameter (R68). -/
theorem Instr.two_le_width_of_ne_halt {i : Instr} (h : i ≠ .halt) : 2 ≤ i.width := by
  cases i with
  | halt => exact absurd rfl h
  | _ => simp

end Sys2Proof

namespace Sys2Proof.Machine

/-! ## Halt -/

/-- The updates of Halt take status Running to Halted (10_state.md R28). -/
theorem clearRunning_advance_status {s : State} (w : Nat) (hs : s.status = .running) :
    (s.clearRunning.advance w).status = .halted := by
  obtain ⟨hcons, hlatch, -⟩ := status_eq_running.1 hs
  exact status_eq_halted.2 ⟨hcons, hlatch, rfl⟩

/-- Settles O20: 99 decodes to Halt, whose two updates, written out, are the next state. -/
theorem haltCompletes : Obligations.HaltCompletes :=
  ⟨execHalt_eq, fun _ hs hv =>
    ⟨_, step_of_decode hs hv (decode_eq_halt_iff.2 rfl), rfl, clearRunning_advance_status 1 hs⟩⟩

/-- Settles O36: the two updates of Halt touch no other field, and outside status Running only a Construct acts. -/
theorem haltFrame : Obligations.HaltFrame := by
  intro s t h
  obtain rfl : s.clearRunning.advance 1 = t := Host.Outcome.next.inj ((execHalt_eq s).symm.trans h)
  refine ⟨rfl, rfl, rfl, rfl, rfl, rfl, rfl, fun _ => rfl, fun hs => ?_⟩
  have hhalted : (s.clearRunning.advance 1).status = .halted := clearRunning_advance_status 1 hs
  exact ⟨hhalted, fun c _ => perform_of_not_running c (by rw [hhalted]; decide)⟩

/-! ## pc -/

/-- A completed Step ends within memory, whose length it keeps (10_state.md R24). -/
theorem stepAt_next_pc_le_len {c : Config} {s t : State} (h : stepAt c s = .next t) : t.pc ≤ t.mem.len := by
  obtain ⟨-, i, hi, he⟩ := stepAt_eq_next h
  obtain ⟨v, hv, -⟩ := fetchWith_eq_ok.1 hi
  rw [(execAt_next_effect he).pc_eq, stepAt_next_len h]
  exact execAt_next_end_le_len (Int.ofNat_lt.1 (inRange_of_read hv).2) he

/-- Settles O56: pc grows by the width, which is 1 for Halt alone, and Halt clears the flag. -/
theorem pcStrictlyIncreases : Obligations.PcStrictlyIncreases := by
  intro c s t h
  obtain ⟨v, i, -, -, he⟩ := stepAt_next_effect h
  refine ⟨?_, stepAt_next_pc_le_len h, fun hrun => ?_⟩ <;> rw [he.pc_eq]
  · exact Nat.lt_add_of_pos_right i.width_pos
  · refine Nat.add_le_add_left (Instr.two_le_width_of_ne_halt ?_) _
    rintro rfl
    rw [he.running_of_halt] at hrun
    cases hrun

/-! ## Every Run ends -/

section RunEnds

variable {c : Config} {s : State} {n : Nat}

/-- A run goes on only from a Step that completed: a fault leaves the machine Faulted (44_host_operations.md R134). -/
theorem stepAt_next_of_stepTransaction_running (hs : s.status = .running)
    (h : (stepTransaction (stepAt c) s).status = .running) :
    stepAt c s = .next (stepTransaction (stepAt c) s) := by
  cases hstep : stepAt c s with
  | next t => rw [stepTransaction, hstep]; rfl
  | fault f =>
    rw [stepAt_fault_status hstep] at h
    cases h
  | refused why => exact absurd hstep (stepAt_ne_refused_of_running hs why)

/-- The cells from pc on bound the Steps of a run: each but the last takes two of them (43_control.md R122 b). -/
theorem runFuel_not_running (hn : s.status = .running → s.mem.len - s.pc < 2 * n) :
    (runFuel (stepAt c) n s).status ≠ .running := by
  induction n generalizing s with
  | zero => exact fun hs => Nat.not_lt_zero _ (hn hs)
  | succ n ih =>
    by_cases hs : s.status = .running
    · rw [runFuel_succ_of_running _ n hs]
      refine ih fun hrun => ?_
      have hnext := stepAt_next_of_stepTransaction_running hs hrun
      obtain ⟨-, -, hset⟩ := status_eq_running.1 hrun
      obtain ⟨-, hend, hgrow⟩ := pcStrictlyIncreases c _ _ hnext
      have hlen := stepAt_next_len hnext
      have hbound := hn hs
      have hpc := hgrow hset
      omega
    · rwa [runFuel_of_not_running _ _ hs]

/-- The loop of Run is `n` Step transactions: those it no longer makes would change nothing (R134, R140). -/
theorem runFuel_eq_iterate (c : Config) (n : Nat) (s : State) :
    runFuel (stepAt c) n s = (stepTransaction (stepAt c))^[n] s := by
  induction n generalizing s with
  | zero => rfl
  | succ n ih =>
    by_cases hs : s.status = .running
    · rw [runFuel_succ_of_running _ n hs, ih, Function.iterate_succ_apply]
    · have hfixed : stepTransaction (stepAt c) s = s := stepTransaction_of_not_running c hs
      rw [runFuel_of_not_running _ _ hs, Function.iterate_fixed hfixed]

/-- A run that has ended within `n` Steps is where it was after `n` Steps, however many more are asked for. -/
theorem iterate_stepTransaction_of_le {m : Nat} (hle : n ≤ m)
    (h : ((stepTransaction (stepAt c))^[n] s).status ≠ .running) :
    (stepTransaction (stepAt c))^[m] s = (stepTransaction (stepAt c))^[n] s := by
  obtain ⟨k, rfl⟩ := Nat.exists_eq_add_of_le' hle
  rw [Function.iterate_add_apply, Function.iterate_fixed (stepTransaction_of_not_running c h)]

theorem runAt_eq_iterate (c : Config) (s : State) :
    runAt c s = (stepTransaction (stepAt c))^[s.mem.len / 2 + 1] s := runFuel_eq_iterate c _ s

theorem runAt_not_running (c : Config) (s : State) : (runAt c s).status ≠ .running :=
  runFuel_not_running fun _ => by unfold stepBound; omega

theorem stepTransaction_constructed (c : Config) (s : State) :
    (stepTransaction (stepAt c) s).constructed = s.constructed := by
  unfold stepTransaction
  cases h : stepAt c s with
  | next t =>
    obtain ⟨v, i, -, -, he⟩ := stepAt_next_effect h
    exact he.constructed_eq
  | fault f =>
    obtain ⟨r, hr⟩ := stepAt_fault_after h
    exact (congrArg State.constructed hr).trans (raise_constructed s r)
  | refused why => rfl

theorem runAt_constructed (c : Config) (s : State) : (runAt c s).constructed = s.constructed :=
  runFuel_keeps (P := fun t => t.constructed = s.constructed)
    (fun t ht => (stepTransaction_constructed c t).trans ht) _ rfl

/-- A constructed machine that is not Running is Halted or Faulted (10_state.md R28). -/
theorem ended_of_not_running (hcons : s.constructed = true) (h : s.status ≠ .running) : s.Ended := by
  cases hs : s.status with
  | unconstructed =>
    rw [status_eq_unconstructed.1 hs] at hcons
    cases hcons
  | running => exact absurd hs h
  | halted => exact .inl hs
  | faulted => exact .inr hs

end RunEnds

/-- Settles O55: the Step count is the first one after which the machine is not Running, and from there on nothing
changes. -/
theorem everyRunEnds : Obligations.EveryRunEnds := by
  intro c s hs
  obtain ⟨hcons, -, -⟩ := status_eq_running.1 hs
  have hstop : (runAt c s).status ≠ .running := runAt_not_running c s
  refine ⟨ended_of_not_running ((runAt_constructed c s).trans hcons) hstop, ?_, fun fuel hfuel => ?_⟩
  · rw [runAt_eq_iterate] at hstop
    have hex : ∃ n, ((stepTransaction (stepAt c))^[n] s).status ≠ .running := ⟨_, hstop⟩
    have hle : Nat.find hex ≤ s.mem.len / 2 + 1 := Nat.find_le hstop
    exact ⟨Nat.find hex, hle,
      (runAt_eq_iterate c s).trans (iterate_stepTransaction_of_le hle (Nat.find_spec hex)),
      fun k hk => not_not.1 (Nat.find_min hex hk)⟩
  · rw [runAt_eq_iterate] at hstop ⊢
    exact (runFuel_eq_iterate c fuel s).trans (iterate_stepTransaction_of_le hfuel hstop)

end Sys2Proof.Machine

/-!
The host's transactions: when a Construct is admitted and what it leaves, a Step requested outside status Running, the
name of a fault, a Run as a sequence of Steps, and Inspect (44_host_operations.md R131 to R141).
-/

namespace Sys2Proof.Machine

/-! ## A Step outside status Running, and the name of a fault -/

/-- Settles O14: the Step is refused, by `stepAt_refused`, and only a Construct would change the machine. -/
theorem noStepOutsideRunning : Obligations.NoStepOutsideRunning := by
  intro c s hs
  obtain ⟨why, hat⟩ := stepAt_refused (c := c) hs
  obtain ⟨why', hspec⟩ := stepAt_refused (c := Config.spec) hs
  rw [hat, step_eq_stepAt, hspec]
  exact ⟨nofun, nofun, nofun, nofun, perform_of_not_running c hs rfl, perform_of_not_running c hs rfl⟩

theorem step_of_notEnabled {s : State} {why : Refusal} (h : s.notEnabled = some why) : step s = .refused why := by
  rw [step, h]

/-- The diagnostic of a reason is the one its class names (60_exceptions.md R150). -/
theorem FaultReason.fault_named_by_cause (r : FaultReason) (t : State) :
    (r.cause = .decodeError ∧ r.fault t = .decodeError t) ∨
    (r.cause = .addressingError ∧ r.fault t = .addressingError t) ∨
    (r.cause = .inputStarvation ∧ r.fault t = .inputStarvation t) ∨
    (r.cause = .numericOverflow ∧ r.fault t = .numericOverflow t) := by
  cases r <;> simp [FaultReason.cause, FaultReason.fault]

/-- Settles O15: the refusal is `notEnabled` of the status, and the fault is the diagnostic of the reason whose class
fault entry writes to the latch. -/
theorem stopsAreNamed : Obligations.StopsAreNamed := by
  refine ⟨fun s => ⟨?_, ?_, ?_⟩, fun s f hf => ?_⟩
  iterate 3 exact fun hs => step_of_notEnabled (by rw [State.notEnabled, hs])
  · obtain ⟨-, r, hr⟩ := stepAt_eq_fault (step_eq_stepAt s ▸ hf)
    obtain rfl : f = r.fault (s.raise r) := hr
    rw [fault_after]
    exact r.fault_named_by_cause (s.raise r)

/-! ## Run -/

/-- A Step before a Run does not change where the Run ends: the Run is over within its bound, and the bound, a matter of
len, is the same after the Step. -/
theorem runAt_stepTransaction (c : Config) (s : State) : runAt c (stepTransaction (stepAt c) s) = runAt c s := by
  have hstop : (runAt c s).status ≠ .running := runAt_not_running c s
  rw [runAt_eq_iterate] at hstop
  rw [runAt_eq_iterate, runAt_eq_iterate, stepTransaction_len, ← Function.iterate_succ_apply]
  exact iterate_stepTransaction_of_le (Nat.le_succ _) hstop

theorem runAt_of_next {c : Config} {s t : State} (h : stepAt c s = .next t) : runAt c s = runAt c t := by
  have htx : stepTransaction (stepAt c) s = t := by rw [stepTransaction, h]; rfl
  rw [← htx, runAt_stepTransaction]

/-- Settles O54: the three cases of a Step for `run`, which is `runAt` with the spec's parameters. -/
theorem runIsSteps : Obligations.RunIsSteps := by
  refine ⟨fun s hs => ?_, fun s t h => ?_, fun s f h => ?_⟩
  · rw [run_eq_runAt, runAt_of_not_running _ hs]
  · rw [run_eq_runAt, run_eq_runAt, runAt_of_next (step_eq_stepAt s ▸ h)]
  · rw [run_eq_runAt]
    exact runFuel_succ_of_fault _ (step_eq_stepAt s ▸ h)

/-! ## Construct -/

/-- What Construct loads is what was admitted, and every other field starts empty (70_reset_and_hazards.md R181 to
R185). -/
theorem constructedState_inv {c : Config} {program input : List Word} (h : Admitted c program input) :
    (constructedState program input).Inv c := by
  obtain ⟨hprogram, hinput, hmemCap, hinCap⟩ := h
  exact {
    memWf := load_wf program
    memWords := fun x hx => by
      obtain ⟨-, -, -, hmem⟩ := mem_cellsFrom hx
      exact hprogram x.2 hmem
    memCap := hmemCap
    pcRange := Nat.zero_le _
    inqWords := hinput
    inqCap := hinCap
    outqWords := nofun
    outqLen := Nat.le_refl _
    latchLegal := rfl
    faultedShape := absurd rfl }

/-- Settles O51: `constructedState_inv`. -/
theorem constructMeetsTheInvariant : Obligations.ConstructMeetsTheInvariant := fun _ _ _ => constructedState_inv

/-- Admission asks one thing of every value and one of each length (R131). -/
theorem admitted_iff {c : Config} {program input : List Word} :
    Admitted c program input ↔
      (∀ v ∈ program ++ input, IsWord c.wordBits v) ∧
        withinCap c.memCap program.length ∧ withinCap c.inCap input.length := by
  rw [Admitted, List.forall_mem_append, and_assoc]

/-- The spec's parameters have no capacities (00_scope.md R6). -/
theorem admitted_spec_iff {program input : List Word} :
    Admitted Config.spec program input ↔ ∀ v ∈ program ++ input, IsWord 64 v :=
  admitted_iff.trans (and_iff_left ⟨nofun, nofun⟩)

theorem admitted_nil (c : Config) : Admitted c [] [] :=
  ⟨nofun, nofun, fun _ _ => Nat.zero_le _, fun _ _ => Nat.zero_le _⟩

/-- Settles O46: the word range and the capacities are written out in the first two clauses; a Construct that is not
admitted is the refusing branch. -/
theorem constructIsAdmittedOrRefused : Obligations.ConstructIsAdmittedOrRefused := by
  refine ⟨fun c program input => admitted_iff, fun program input => ?_, admitted_nil, fun c program input s h => ?_⟩
  · rw [admitted_spec_iff]
    norm_num [IsWord, wordMin, wordMax]
  · exact ⟨if_neg h, perform_construct_of_not_admitted s h⟩

/-! ## Inspect -/

theorem inspect_cell {s : State} (h : s.constructed = true) (a : Int) :
    inspect (.cell a) s = orInvalidIndex (s.mem.read a) := if_pos h

theorem inspect_outEntry {s : State} (h : s.constructed = true) (k : Int) :
    inspect (.outEntry k) s = orInvalidIndex (logEntry s.outq k) := if_pos h

theorem logEntry_of_lt {outq : List Word} {k : Nat} (h : k < outq.length) : logEntry outq (k : Int) = some outq[k] := by
  rw [logEntry, if_pos (Int.natCast_nonneg k), Int.toNat_natCast, List.getElem?_eq_getElem h]

/-- Settles O49: a query of a field answers the field, and a query of a cell or an entry what stands there, if
anything. -/
theorem inspectReadsTheState : Obligations.InspectReadsTheState := by
  intro c s h
  refine ⟨if_pos h, if_pos h, if_pos h, if_pos h, fun k hk => ?_, fun a v hv => ?_, fun a ha => ?_,
    if_pos h, if_pos h, if_pos h, if_pos h, fun _ => rfl⟩
  · rw [inspect_outEntry h, logEntry_of_lt hk, orInvalidIndex]
  · rw [inspect_cell h, hv, orInvalidIndex]
  · have hnone : s.mem.read a = none := read_eq_none.2 fun hr => by omega
    rw [inspect_cell h, hnone, orInvalidIndex]

end Sys2Proof.Machine

/-!
Faults: which an instruction raises in EXECUTE and which it can raise at all, and a machine that has taken one
(60_exceptions.md R153 to R155, R161 to R165).
-/

namespace Sys2Proof.Machine

/-! ## Faults of EXECUTE -/

theorem commitArith_of_overflow {c : Config} {x : Int} (h : overflowAt c x = none) (d : Int) (w : Nat) (s : State) :
    commitArith c x d w s = takeFault .numericOverflow s := by
  rw [commitArith, h]

/-- Settles O25: the parameters resolve, and the spec's policy gives no word for a result out of range. -/
theorem overflowFaults : Obligations.OverflowFaults := by
  intro m1 m2 s a b d ha hb hd
  have hover {x : Int} (hx : ¬ IsWord 64 x) : overflowAt Config.spec x = none := overflowAt_fault hx rfl
  exact ⟨fun hx => (execAddAt_of_resolved ha hb hd).trans (commitArith_of_overflow (hover hx) d 4 s),
    fun hx => (execMulAt_of_resolved ha hb hd).trans (commitArith_of_overflow (hover hx) d 4 s)⟩

theorem exec_inp_of_inq_nil {s : State} {d : Int} (hd : s.Target 1 d) (hq : s.inq = []) :
    exec (.inp .position) s = takeFault .inputStarvation s := by
  simp only [exec, execInp, resolveF1W_eq_ok.2 ⟨rfl, hd⟩, hq]

/-- Settles O30: the fault of `exec_inp_of_inq_nil`, written out. -/
theorem emptyQueueFaults : Obligations.EmptyQueueFaults := ⟨rfl, fun _ _ hd hq => exec_inp_of_inq_nil hd hq⟩

/-! ## The faults of each instruction -/

section Resolve

variable {m1 m2 m3 : Mode} {w : Word} {s : State} {e : FaultReason}

/-- Format F3 faults for the write mode or for one of the three parameters (R70 b, R86). -/
theorem resolveF3_eq_error (h : resolveF3 m1 m2 m3 w s = .error e) :
    (m3 = .immediate ∧ e = .writeImmediate w) ∨ readParam m1 1 s = .error e ∨ readParam m2 2 s = .error e ∨
      writeParam 3 s = .error e := by
  cases m3 with
  | immediate => exact .inl ⟨rfl, (Except.error.inj h).symm⟩
  | position =>
    refine .inr ?_
    cases h1 : readParam m1 1 s with
    | error e1 => exact .inl (by simpa [resolveF3, writeMode, h1] using h)
    | ok a =>
      refine .inr ?_
      cases h2 : readParam m2 2 s with
      | error e2 => exact .inl (by simpa [resolveF3, writeMode, h1, h2] using h)
      | ok b =>
        refine .inr ?_
        cases h3 : writeParam 3 s with
        | error e3 => simpa [resolveF3, writeMode, h1, h2, h3] using h
        | ok d => simp [resolveF3, writeMode, h1, h2, h3] at h

/-- Format F1W faults for the write mode or for its parameter (R70 b, R87). -/
theorem resolveF1W_eq_error (h : resolveF1W m1 w s = .error e) :
    (m1 = .immediate ∧ e = .writeImmediate w) ∨ writeParam 1 s = .error e := by
  cases m1 with
  | immediate => exact .inl ⟨rfl, (Except.error.inj h).symm⟩
  | position => exact .inr h

/-- A read parameter raises only faults that the table gives Add, Multiply and Output (R155). -/
theorem canRaise_of_readParam_error {i : Instr} {m : Mode} {k : Nat} (h : readParam m k s = .error e)
    (hi : i.op ∈ [Op.add, .mul, .out]) : CanRaise i e := by
  obtain ⟨-, rfl⟩ | ⟨r, -, -, -, rfl⟩ := readParam_eq_error h <;>
    cases i with
    | inp m1 => simp [Instr.op] at hi
    | halt => simp [Instr.op] at hi
    | _ => trivial

/-- A write parameter raises only faults that the table gives Add, Multiply and Input (R155). -/
theorem canRaise_of_writeParam_error {i : Instr} {k : Nat} (h : writeParam k s = .error e)
    (hi : i.op ∈ [Op.add, .mul, .inp]) : CanRaise i e := by
  obtain ⟨-, rfl⟩ | ⟨r, -, -, rfl⟩ := writeParam_eq_error h <;>
    cases i with
    | out m1 => simp [Instr.op] at hi
    | halt => simp [Instr.op] at hi
    | _ => trivial

theorem canRaise_writeImmediate {i : Instr} (h : i.wf = false) : CanRaise i (.writeImmediate (encode i)) := by
  cases i <;> exact ⟨h, rfl⟩

theorem canRaise_of_resolveF3_error {i : Instr} (h : resolveF3 m1 m2 m3 (encode i) s = .error e)
    (hi : i ∈ [Instr.add m1 m2 m3, .mul m1 m2 m3]) : CanRaise i e := by
  have hread : i.op ∈ [Op.add, .mul, .out] := by obtain rfl | rfl := List.mem_pair.1 hi <;> simp [Instr.op]
  have hwrite : i.op ∈ [Op.add, .mul, .inp] := by obtain rfl | rfl := List.mem_pair.1 hi <;> simp [Instr.op]
  obtain ⟨rfl, rfl⟩ | h1 | h2 | h3 := resolveF3_eq_error h
  · refine canRaise_writeImmediate ?_
    obtain rfl | rfl := List.mem_pair.1 hi <;> rfl
  · exact canRaise_of_readParam_error h1 hread
  · exact canRaise_of_readParam_error h2 hread
  · exact canRaise_of_writeParam_error h3 hwrite

theorem canRaise_of_resolveF1W_error (h : resolveF1W m1 (encode (.inp m1)) s = .error e) : CanRaise (.inp m1) e := by
  obtain ⟨rfl, rfl⟩ | h1 := resolveF1W_eq_error h
  · exact canRaise_writeImmediate rfl
  · exact canRaise_of_writeParam_error h1 (by simp [Instr.op])

theorem canRaise_of_resolveF1R_error (h : resolveF1R m1 s = .error e) : CanRaise (.out m1) e :=
  canRaise_of_readParam_error h (by simp [Instr.op])

end Resolve

/-- A fault that a meaning answers is the diagnostic of a reason that the table gives the instruction (R155). -/
theorem execAt_fault_canRaise {c : Config} {i : Instr} {s : State} {f : Fault} (h : execAt c i s = .fault f) :
    ∃ r, CanRaise i r ∧ FaultsWith s r f := by
  cases i with
  | add m1 m2 m3 =>
    obtain ⟨r, hr, e⟩ | ⟨a, b, d, -, -, -, -, ⟨-, e⟩ | ⟨res, -, e⟩⟩ := execAddAt_cases c m1 m2 m3 s <;>
      rw [execAt, e] at h
    · exact ⟨r, canRaise_of_resolveF3_error hr (by simp), takeFault_eq_fault.1 h⟩
    · exact ⟨.numericOverflow, trivial, takeFault_eq_fault.1 h⟩
    · cases h
  | mul m1 m2 m3 =>
    obtain ⟨r, hr, e⟩ | ⟨a, b, d, -, -, -, -, ⟨-, e⟩ | ⟨res, -, e⟩⟩ := execMulAt_cases c m1 m2 m3 s <;>
      rw [execAt, e] at h
    · exact ⟨r, canRaise_of_resolveF3_error hr (by simp), takeFault_eq_fault.1 h⟩
    · exact ⟨.numericOverflow, trivial, takeFault_eq_fault.1 h⟩
    · cases h
  | inp m1 =>
    obtain ⟨r, hr, e⟩ | ⟨d, -, -, ⟨-, e⟩ | ⟨x, rest, -, e⟩⟩ := execInp_cases m1 s <;> rw [execAt, e] at h
    · exact ⟨r, canRaise_of_resolveF1W_error hr, takeFault_eq_fault.1 h⟩
    · exact ⟨.inputStarvation, trivial, takeFault_eq_fault.1 h⟩
    · cases h
  | out m1 =>
    obtain ⟨r, hr, e⟩ | ⟨a, -, e⟩ := execOut_cases m1 s <;> rw [execAt, e] at h
    · exact ⟨r, canRaise_of_resolveF1R_error hr, takeFault_eq_fault.1 h⟩
    · cases h
  | halt => cases h

/-- Settles O32: `execAt_fault_canRaise`, and no update of a completed instruction touches the latch. -/
theorem instructionsRaiseOnlyTheirFaults : Obligations.InstructionsRaiseOnlyTheirFaults :=
  fun _ _ _ => ⟨fun _ => execAt_fault_canRaise, fun _ h => (execAt_next_effect h).latch_eq⟩

/-! ## A Faulted machine -/

theorem not_running_of_faulted {s : State} (h : s.status = .faulted) : s.status ≠ .running := by
  rw [h]
  decide

/-- A sequence of transactions without a Construct changes nothing outside status Running (R140, R141). -/
theorem performAll_of_not_running (c : Config) {txs : List Transaction} {s : State} (hs : s.status ≠ .running)
    (htxs : ∀ tx ∈ txs, tx.isConstruct = false) : performAll c txs s = s := by
  induction txs with
  | nil => rfl
  | cons tx txs ih =>
    obtain ⟨htx, hrest⟩ := List.forall_mem_cons.1 htxs
    rw [performAll, perform_of_not_running c hs htx, ih hrest]

/-- The log has an entry at every index below its length and nowhere else (44_host_operations.md R137). -/
theorem logEntry_eq_none {outq : List Word} {k : Int} (h : logEntry outq k = none) :
    k < 0 ∨ (outq.length : Int) ≤ k := by
  by_contra! hk
  lift k to Nat using hk.1
  rw [logEntry_of_lt (Int.ofNat_lt.1 hk.2)] at h
  cases h

/-- After a Construct, Inspect reads every item that exists: only a cell or a log entry can be missing (R137). -/
theorem inspect_ok_or_missing {s : State} (h : s.constructed = true) (q : Query) :
    (∃ v, inspect q s = .ok v) ∨ (∃ a : Int, q = .cell a ∧ s.mem.read a = none) ∨
      ∃ k : Int, q = .outEntry k ∧ (k < 0 ∨ (s.outq.length : Int) ≤ k) := by
  cases q with
  | cell a =>
    cases ha : s.mem.read a with
    | none => exact .inr (.inl ⟨a, rfl, ha⟩)
    | some v => exact .inl ⟨v, by rw [inspect_cell h, ha, orInvalidIndex]⟩
  | outEntry k =>
    cases hk : logEntry s.outq k with
    | none => exact .inr (.inr ⟨k, rfl, logEntry_eq_none hk⟩)
    | some v => exact .inl ⟨v, by rw [inspect_outEntry h, hk, orInvalidIndex]⟩
  | _ => exact .inl ⟨_, if_pos h⟩

/-- Settles O47: a Faulted machine is not Running, so only a Construct changes it, and it is constructed, so Inspect
reads it. -/
theorem faultedUntilConstruct : Obligations.FaultedUntilConstruct := by
  intro c s hs
  have hstop := not_running_of_faulted hs
  obtain ⟨hcons, -⟩ := status_eq_faulted.1 hs
  obtain ⟨hnext, hfault, -⟩ := noStepOutsideRunning c s hstop
  obtain ⟨-, -, -, -, hentry, hcell, -⟩ := inspectReadsTheState c s hcons
  refine ⟨hnext, hfault, fun txs => performAll_of_not_running c hstop, fun program input h => ?_, hcell, hentry,
    inspect_ok_or_missing hcons⟩
  rw [perform_construct_of_admitted s h]
  exact ⟨rfl, rfl⟩

/-! ## A fault as the outcome of a Step -/

section Outcome

variable {c : Config} {s : State}

theorem perform_step_of_next {t : State} (h : stepAt c s = .next t) : perform c .step s = t := by
  rw [perform, stepTransaction, h]
  rfl

theorem perform_step_of_fault {f : Fault} (h : stepAt c s = .fault f) : perform c .step s = f.after := by
  rw [perform, stepTransaction, h]
  rfl

theorem stepAt_next_not_faulted {t : State} (h : stepAt c s = .next t) : t.status ≠ .faulted ∧ t.latch = s.latch := by
  obtain ⟨hs, -⟩ := stepAt_eq_next h
  obtain ⟨-, hclear, -⟩ := status_eq_running.1 hs
  obtain ⟨v, i, -, -, he⟩ := stepAt_next_effect h
  refine ⟨fun hfaulted => ?_, he.latch_eq⟩
  obtain ⟨-, hset⟩ := status_eq_faulted.1 hfaulted
  exact hset (he.latch_eq ▸ hclear)

end Outcome

/-- Settles O59: fault entry leaves a Faulted machine, so O47 says what follows it; a completed Step leaves the latch
clear. -/
theorem faultIsADistinctOutcome : Obligations.FaultIsADistinctOutcome := by
  refine fun c => ⟨fun s f h => ?_, fun s t h => ?_⟩
  · have hstep := perform_step_of_fault h
    have hfaulted : f.after.status = .faulted := hstep ▸ stepAt_fault_status h
    obtain ⟨hnext, hfault, hsticky, -⟩ := faultedUntilConstruct c f.after hfaulted
    refine ⟨hfaulted, fun hfinal => ?_, hstep, runFuel_succ_of_fault _ h, hnext, hfault, hsticky⟩
    exact absurd (hfinal.symm.trans hfaulted) (by decide)
  · obtain ⟨hnot, hlatch⟩ := stepAt_next_not_faulted h
    exact ⟨hnot, hlatch, perform_step_of_next h⟩

end Sys2Proof.Machine

/-!
Construct as the machine's reset, and whole sessions of the host from any power-on state (70_reset_and_hazards.md R180
to R185, 44_host_operations.md R139).
-/

namespace Sys2Proof.Machine

/-! ## A session keeps the invariant -/

/-- What every transaction keeps, a session of them keeps (R139). -/
theorem performAll_keeps {P : State → Prop} {c : Config} (hP : ∀ tx s, P s → P (perform c tx s))
    (txs : List Transaction) {s : State} (hs : P s) : P (performAll c txs s) := by
  induction txs generalizing s with
  | nil => exact hs
  | cons tx txs ih => exact ih (hP tx s hs)

theorem stepTransaction_keeps_inv {c : Config} {s : State} (h : s.Inv c) : (stepTransaction (stepAt c) s).Inv c := by
  unfold stepTransaction
  cases hs : stepAt c s with
  | next t => exact stepAt_next_keeps_inv h hs
  | fault f => exact stepAt_fault_keeps_inv h hs
  | refused why => exact h

/-- A Step constructs no machine, so a constructed machine after it was one before it. -/
theorem stepTransaction_keeps_invIfConstructed {c : Config} (s : State) (h : s.InvIfConstructed c) :
    (stepTransaction (stepAt c) s).InvIfConstructed c := fun hcons =>
  stepTransaction_keeps_inv (h (stepTransaction_constructed c s ▸ hcons))

theorem perform_keeps_invIfConstructed {c : Config} (tx : Transaction) (s : State) (h : s.InvIfConstructed c) :
    (perform c tx s).InvIfConstructed c := by
  cases tx with
  | construct program input =>
    by_cases hadm : Admitted c program input
    · rw [perform_construct_of_admitted s hadm]
      exact fun _ => constructedState_inv hadm
    · rwa [perform_construct_of_not_admitted s hadm]
  | step => exact stepTransaction_keeps_invIfConstructed s h
  | run => exact runFuel_keeps stepTransaction_keeps_invIfConstructed _ h
  | inspect q => exact h

/-- Settles O53: an Unconstructed machine meets `InvIfConstructed` whatever it holds, and every transaction keeps it. -/
theorem everySessionKeepsTheInvariant : Obligations.EverySessionKeepsTheInvariant := by
  intro c txs s hs
  have hstart : s.InvIfConstructed c := fun hcons => absurd (hs.symm.trans hcons) (by decide)
  exact performAll_keeps perform_keeps_invIfConstructed txs hstart

/-! ## What a Construct leaves -/

theorem construct_of_admitted {c : Config} {program input : List Word} (h : Admitted c program input) :
    construct c program input = .next (constructedState program input) := if_pos h

theorem read_load (program : List Word) (k : Nat) (h : k < program.length) :
    (Memory.load program).read (k : Int) = some program[k] := by
  refine read_eq_some.2 ⟨⟨Int.natCast_nonneg k, Int.ofNat_lt.2 h⟩, ?_⟩
  have hcell := getCell_cellsFrom 0 program k h
  rwa [Nat.zero_add] at hcell

theorem read_load_eq_none {program : List Word} {a : Int} (h : a < 0 ∨ (program.length : Int) ≤ a) :
    (Memory.load program).read a = none := by
  refine read_eq_none.2 fun ⟨hnonneg, hlt⟩ => ?_
  change a < (program.length : Int) at hlt
  omega

/-- Settles O44: the fields of `constructedState`, with memory read through `read_load`. -/
theorem constructLoadsTheProgram : Obligations.ConstructLoadsTheProgram := by
  intro c program input h
  exact ⟨constructedState program input, construct_of_admitted h, rfl, rfl, rfl, read_load program,
    fun _ => read_load_eq_none⟩

/-- State.reset is the machine that a Construct of the empty program with no input leaves (log 5). -/
theorem constructedState_nil : constructedState [] [] = State.reset := rfl

/-- Settles O45: an admitted Construct leaves `constructedState`, which holds nothing of the state before. -/
theorem constructResetsTheRest : Obligations.ConstructResetsTheRest := by
  refine ⟨fun c program input s h => ?_, ?_⟩
  · exact ⟨constructedState program input, perform_construct_of_admitted s h, rfl, rfl, rfl, rfl, rfl⟩
  · rw [construct_of_admitted (admitted_nil _), constructedState_nil]

/-- Settles O50: State.reset is a constructed state, and its program and input are admitted. -/
theorem resetMeetsTheInvariant : Obligations.ResetMeetsTheInvariant :=
  ⟨constructedState_nil ▸ constructedState_inv (admitted_nil _), rfl⟩

/-! ## Before the first Construct -/

/-- Every transaction but Construct is refused on an Unconstructed machine (R140, R141, R137). -/
theorem answerTo_of_unconstructed (c : Config) {s : State} {tx : Transaction} (hs : s.status = .unconstructed)
    (htx : tx.isConstruct = false) : ∃ r, answerTo c tx s = .error r := by
  have hcons : s.constructed ≠ true := ne_true_of_eq_false (status_eq_unconstructed.1 hs)
  cases tx with
  | construct program input => cases htx
  | step =>
    have hstop : s.status ≠ .running := hs ▸ nofun
    obtain ⟨why, hwhy⟩ := stepAt_refused (c := c) hstop
    exact ⟨why, by rw [answerTo, hwhy]⟩
  | run => exact ⟨.runWhenUnconstructed, if_neg hcons⟩
  | inspect q =>
    have hinspect : inspect q s = .error .inspectWhenUnconstructed := if_neg hcons
    exact ⟨.inspectWhenUnconstructed, by rw [answerTo, hinspect]⟩

/-- Settles O48: an Unconstructed machine is not Running, so only a Construct changes it. -/
theorem unconstructedAllowsOnlyConstruct : Obligations.UnconstructedAllowsOnlyConstruct := by
  refine fun c s hs => ⟨fun tx htx => ⟨?_, answerTo_of_unconstructed c hs htx⟩, fun program input h => ?_⟩
  · exact perform_of_not_running c (hs ▸ nofun) htx
  · rw [perform_construct_of_admitted s h]
    rfl

end Sys2Proof.Machine
